-- ==== Sys2Proof/Word.lean ====
section
/-!
DEFINITION. The word types of the block: bytes, flat buffer addresses, binary32 patterns, and the two
execution contexts that may issue an operation.
-/

namespace Sys2Proof

/-- A byte, 8 bits unsigned (00_scope.md R7). -/
abbrev Byte := BitVec 8

/-- A flat buffer address `256*k + i`, 9 bits (20_memory.md R30). Every value of it exists. -/
abbrev Addr := BitVec 9

/-- A 32-bit pattern read as an IEEE-754 single-precision value (10_state.md R15). -/
abbrev Pattern := BitVec 32

/-- The nine SensorReading registers `x[0]` to `x[8]` (10_state.md R15). -/
abbrev Readings := Vector Pattern 9

/-- The two execution contexts of 60_exceptions.md R151. The environment is no context: it issues no operation
(70_reset_and_hazards.md R171). -/
inductive Ctx where
  /-- The Frame Receiver, in the interrupt context. -/
  | producer
  /-- The Frame Parser and the accessors, in the foreground context. -/
  | consumer
  deriving DecidableEq, Repr

end Sys2Proof
end

