-- ==== Sys2Proof/Config.lean ====
section
/-!
DEFINITION. What is fixed for the block (00_scope.md R5), and the free values: what the spec leaves open
(00_scope.md R6, 45_diagnostic.md R130). A free value has no body, so no proof can learn what it is.
-/

namespace Sys2Proof

/-- `BUF_SIZE`: bytes per RawFrameBuffer (R5). -/
def Config.bufSize : Nat := 256

/-- `SF1_BASE` and `SF1_LEN` (R5). -/
def Config.sf1Base : Nat := 0
/-- `SF1_LEN` (R5). -/
def Config.sf1Len : Nat := 34

/-- `SF2_BASE` (R5). -/
def Config.sf2Base : Nat := 34
/-- `SF2_LEN` (R5). -/
def Config.sf2Len : Nat := 22

/-- `OFF[0..8]`: the frame offset of each register's four bytes (R5, R15). -/
def Config.fieldOffset : Fin 9 → Nat
  | 0 => 6 | 1 => 10 | 2 => 14 | 3 => 20 | 4 => 24 | 5 => 28 | 6 => 40 | 7 => 44 | 8 => 48

/-- The motion fields, in the order PARSE writes them (43_frame_parser.md R101). -/
def Config.motionFields : List (Fin 9) := [0, 1, 2, 3, 4, 5]

/-- The orientation fields, in the order PARSE writes them (43_frame_parser.md R101). -/
def Config.orientFields : List (Fin 9) := [6, 7, 8]

/-- `Q_MOTION` (R5). -/
def Config.qMotion : Nat := 11
/-- `Q_ORIENT` (R5). -/
def Config.qOrient : Nat := 13
/-- `Q_MAX`: the largest Q factor TOFIXED admits (R6, decision D6). -/
def Config.qMax : Nat := 127

/-- The start value of `sum1` and `sum2` (42_checksum.md R90, decision D7). PRESUMED by the spec itself
(93_implementation_defined.md G2); log entry 12. -/
def Config.sumStart : Byte := 0

/-- `BUF_INIT` (R6, decision D10): the byte at a flat address after the given number of RESETs, before any store
reaches it. Free value; log entry 4. -/
opaque Config.bufInit : Nat → Nat → Byte

/-- `FX_NONFINITE` (R6, decision D5): the result value of the n-th conversion whose product is not a finite
binary32 number. Free value; log entry 5. -/
opaque Config.fxNonfinite : Nat → BitVec 16

/-- PRINT's line of text: an uninterpreted function of `x[0..8]` (45_diagnostic.md R130, decision D23). Free
value; log entry 6. -/
opaque Config.printText : Readings → String

end Sys2Proof
end

