-- ==== Sys2Proof/Syntax.lean ====
section
/-!
DEFINITION. The operations of 30_encoding.md R58: one constructor per row of spec/opcode_table.json, each with the
operand inputs its format names.
-/

namespace Sys2Proof

/-- The 19 operations of the block (R58). -/
inductive Instr where
  /-- 40_double_buffer.md R70: store the byte `b` into the write-active buffer. -/
  | wract (b : Byte)
  /-- 40_double_buffer.md R71: flip the selector, hand the filled buffer to the reader. -/
  | swap
  /-- 41_frame_receiver.md R81: move one queued byte into the active buffer. -/
  | rxb
  /-- 41_frame_receiver.md R82: acknowledge the triggering condition. -/
  | rxack
  /-- 41_frame_receiver.md R83: the interrupt service. -/
  | rxirq
  /-- 42_checksum.md R90: validate `len` bytes from `a` against their trailer. -/
  | check (a len : BitVec 9)
  /-- 43_frame_parser.md R100: assemble one big-endian binary32 field at `a`. -/
  | decf32 (a : BitVec 9)
  /-- 43_frame_parser.md R101: swap, validate both sub-frames, update the readings. -/
  | parse
  /-- 44_fixed_point.md R110: binary32 pattern `p` to signed 16-bit with `q` fraction bits. -/
  | tofixed (p : Pattern) (q : BitVec 8)
  /-- 44_fixed_point.md R112: linear acceleration X in Q11. -/
  | fxaccx
  /-- 44_fixed_point.md R113: linear acceleration Y in Q11. -/
  | fxaccy
  /-- 44_fixed_point.md R114: linear acceleration Z in Q11. -/
  | fxaccz
  /-- 44_fixed_point.md R115: angular rate X in Q11. -/
  | fxgyrx
  /-- 44_fixed_point.md R116: angular rate Y in Q11. -/
  | fxgyry
  /-- 44_fixed_point.md R117: angular rate Z in Q11. -/
  | fxgyrz
  /-- 44_fixed_point.md R118: roll in Q13. -/
  | fxroll
  /-- 44_fixed_point.md R119: pitch in Q13. -/
  | fxpitch
  /-- 44_fixed_point.md R120: yaw in Q13. -/
  | fxyaw
  /-- 45_diagnostic.md R130: format the nine readings. -/
  | print
  deriving DecidableEq, Repr

end Sys2Proof
end

