-- ==== Sys2Proof/WellFormed.lean ====
section
/-!
DEFINITION. Operand domains that do not depend on the state (30_encoding.md R61). The domain test that does, the
address lying in the read buffer, is in Machine/Operands.lean.
-/

namespace Sys2Proof

/-- `a[7:0]`: the byte offset inside the buffer (20_memory.md R30). -/
def offsetOf (a : Addr) : Nat := (a.extractLsb' 0 8).toNat

/-- `a[8]`: the buffer index (20_memory.md R30). -/
def bufferOf (a : Addr) : BitVec 1 := a.extractLsb' 8 1

/-- The `n` bytes from `a` lie in one buffer: `a[7:0] + n <= 256` (30_encoding.md R61, 42_checksum.md R90). -/
def rangeInBuffer (a : Addr) (n : Nat) : Bool := offsetOf a + n ≤ Config.bufSize

/-- The Q factor is admitted (44_fixed_point.md R110, decision D6). -/
def qAdmitted (q : BitVec 8) : Bool := q.toNat ≤ Config.qMax

/-- The operands lie in the operation's domain, as far as the operands alone decide it (30_encoding.md R61). -/
def Instr.wellFormed : Instr → Bool
  | .check a len => rangeInBuffer a len.toNat
  | .decf32 a => rangeInBuffer a 4
  | .tofixed _ q => qAdmitted q
  | .wract _ | .swap | .rxb | .rxack | .rxirq | .parse | .fxaccx | .fxaccy | .fxaccz | .fxgyrx | .fxgyry
  | .fxgyrz | .fxroll | .fxpitch | .fxyaw | .print => true

end Sys2Proof
end

