-- ==== Sys2Proof/Decode.lean ====
section
/-!
DEFINITION. The operation interface of 30_encoding.md R57 (a command code and separate operand inputs), its decoder,
and the encoder, both from the table of 30_encoding.md R58.
-/

namespace Sys2Proof

/-- The input signals of R57. An operation reads the code and the operands of its format and no other. -/
structure Signals where
  cmd : BitVec 8
  b   : BitVec 8 := 0
  a   : BitVec 9 := 0
  len : BitVec 9 := 0
  p   : BitVec 32 := 0
  q   : BitVec 8 := 0
  deriving DecidableEq, Repr

/-- Why a command is not decoded. -/
inductive DecodeError where
  /-- The code is not listed in R58 (30_encoding.md R59). -/
  | reserved (cmd : BitVec 8)
  deriving DecidableEq, Repr

/-- The table of R58: command code, and the operation with the operand inputs of its format. -/
def commandTable : List (BitVec 8 × (Signals → Instr)) :=
  [(0x01, fun c => .wract c.b),
   (0x02, fun _ => .swap),
   (0x03, fun _ => .rxb),
   (0x04, fun _ => .rxack),
   (0x05, fun _ => .rxirq),
   (0x06, fun c => .check c.a c.len),
   (0x07, fun c => .decf32 c.a),
   (0x08, fun _ => .parse),
   (0x09, fun c => .tofixed c.p c.q),
   (0x10, fun _ => .fxaccx),
   (0x11, fun _ => .fxaccy),
   (0x12, fun _ => .fxaccz),
   (0x13, fun _ => .fxgyrx),
   (0x14, fun _ => .fxgyry),
   (0x15, fun _ => .fxgyrz),
   (0x16, fun _ => .fxroll),
   (0x17, fun _ => .fxpitch),
   (0x18, fun _ => .fxyaw),
   (0x20, fun _ => .print)]

/-- Decoding: the match is on all eight bits of `cmd` (R58); a reserved code is rejected by name (R59). -/
def decode (c : Signals) : Except DecodeError Instr :=
  match commandTable.find? (fun row => row.1 == c.cmd) with
  | some row => .ok (row.2 c)
  | none => .error (.reserved c.cmd)

/-- The command code of an operation (R58). -/
def Instr.code : Instr → BitVec 8
  | .wract _ => 0x01
  | .swap => 0x02
  | .rxb => 0x03
  | .rxack => 0x04
  | .rxirq => 0x05
  | .check _ _ => 0x06
  | .decf32 _ => 0x07
  | .parse => 0x08
  | .tofixed _ _ => 0x09
  | .fxaccx => 0x10
  | .fxaccy => 0x11
  | .fxaccz => 0x12
  | .fxgyrx => 0x13
  | .fxgyry => 0x14
  | .fxgyrz => 0x15
  | .fxroll => 0x16
  | .fxpitch => 0x17
  | .fxyaw => 0x18
  | .print => 0x20

/-- The context an operation belongs to (R58's column Agent, 60_exceptions.md R151). -/
def Instr.ctx : Instr → Ctx
  | .wract _ | .rxb | .rxack | .rxirq => .producer
  | .swap | .check _ _ | .decf32 _ | .parse | .tofixed _ _ | .fxaccx | .fxaccy | .fxaccz | .fxgyrx | .fxgyry
  | .fxgyrz | .fxroll | .fxpitch | .fxyaw | .print => .consumer

/-- Encoding: the code and the operand inputs of the format; inputs the format does not name are 0. -/
def encode (i : Instr) : Signals :=
  match i with
  | .wract b => { cmd := i.code, b := b }
  | .check a len => { cmd := i.code, a := a, len := len }
  | .decf32 a => { cmd := i.code, a := a }
  | .tofixed p q => { cmd := i.code, p := p, q := q }
  | .swap | .rxb | .rxack | .rxirq | .parse | .fxaccx | .fxaccy | .fxaccz | .fxgyrx | .fxgyry
  | .fxgyrz | .fxroll | .fxpitch | .fxyaw | .print => { cmd := i.code }

/-- The signals a command word stands for in the numbering of spec/opcode_table.json. The table gives each row its 8
code bits and packs no operand (R58). The model numbers the operand inputs on from bit 8, in the order the format
names them (`CMD_B`: b; `CMD_A`, `CMD_A_LEN`: a, len; `CMD_P_Q`: p, q). DESIGN CHOICE, safe: log entry 2. -/
def Signals.ofWord (nbits w : Nat) : Signals :=
  let v := w % 2 ^ nbits
  { cmd := BitVec.ofNat 8 v
    b   := BitVec.ofNat 8 (v >>> 8)
    a   := BitVec.ofNat 9 (v >>> 8)
    len := BitVec.ofNat 9 (v >>> 17)
    p   := BitVec.ofNat 32 (v >>> 8)
    q   := BitVec.ofNat 8 (v >>> 40) }

/-- The command word of an operation, in the same numbering: how many bits it has, and its value. -/
def Instr.word (i : Instr) : Nat × Nat :=
  match i with
  | .wract b => (16, i.code.toNat + 2 ^ 8 * b.toNat)
  | .check a len => (26, i.code.toNat + 2 ^ 8 * a.toNat + 2 ^ 17 * len.toNat)
  | .decf32 a => (17, i.code.toNat + 2 ^ 8 * a.toNat)
  | .tofixed p q => (48, i.code.toNat + 2 ^ 8 * p.toNat + 2 ^ 40 * q.toNat)
  | .swap | .rxb | .rxack | .rxirq | .parse | .fxaccx | .fxaccy | .fxaccz | .fxgyrx | .fxgyry
  | .fxgyrz | .fxroll | .fxpitch | .fxyaw | .print => (8, i.code.toNat)

/-- What the decoder reads from a command word in that numbering. -/
def decodeTableWord (nbits w : Nat) : Option Instr :=
  match decode (Signals.ofWord nbits w) with
  | .ok i => some i
  | .error _ => none

end Sys2Proof
end

