-- ==== Sys2Proof/Machine/State.lean ====
section
/-!
DEFINITION. The state of the block (10_state.md R10), the moves still to be taken, the reasons a step can stop, and
the state after reset (10_state.md R24).
-/

namespace Sys2Proof.Machine

/-- The result outputs of 30_encoding.md R57, as one operation answers on them. -/
inductive Output where
  /-- The operation has no result (or none has run since reset). -/
  | none
  /-- SWAP: `k`, the index of the buffer handed to the reader. -/
  | buffer (k : BitVec 1)
  /-- CHECK: `valid`. -/
  | valid (v : Bool)
  /-- DECF32: `pat`. -/
  | pattern (pat : Pattern)
  /-- TOFIXED and the FX accessors: `r` and `ovf`. -/
  | fixed (r : BitVec 16) (ovf : Bool)
  /-- PRINT: one line of text (45_diagnostic.md R130). -/
  | text (t : String)
  deriving DecidableEq, Repr

/-- One move of an execution: an environment event (70_reset_and_hazards.md R171), or a command presented by one of
the two contexts (30_encoding.md R57). -/
inductive Move where
  /-- ENVPUSH (41_frame_receiver.md R80). -/
  | envPush (b : Byte)
  /-- RESET (70_reset_and_hazards.md R160). -/
  | reset
  /-- The environment samples the status output `ovr` (R171). -/
  | readOvr
  /-- The environment takes the latest result (R171). -/
  | takeResult
  /-- A context presents a command. -/
  | issue (by_ : Ctx) (c : Signals)
  deriving DecidableEq, Repr

/-- Why no step is taken although nothing is wrong with the command: the spec gives the agent no step in this state
(93_implementation_defined.md, `stuck`). None of these is an exception: the block raises none (60_exceptions.md R140).
All three are safe: the run ends where the spec has no step. -/
inductive Fault where
  /-- Raised by the meanings of RXB, RXACK and RXIRQ when their enabling condition does not hold
  (41_frame_receiver.md R81, R82; 60_exceptions.md R144). Safe. Log entry 10. -/
  | notEnabled
  /-- Raised by a consumer command that would fall inside a drain when DRAIN_ATOMIC = true (41_frame_receiver.md R83).
  Safe. Log entry 7. -/
  | drainInProgress
  /-- Raised by `step` when no move is listed and the producer is disabled: no agent has a step (60_exceptions.md
  R157). Safe. Log entry 10. -/
  | idle
  deriving DecidableEq, Repr

/-- Why a command has no meaning. All are safe: the model says nothing of what follows. Log entry 15. -/
inductive Refusal where
  /-- No meaning is given to the instruction yet. Raised by no arm of `exec`. Safe. -/
  | notModelled (mnemonic : String)
  /-- A reserved command code (30_encoding.md R59). Raised when a command is decoded. Safe. -/
  | reservedCode (cmd : BitVec 8)
  /-- An operation issued from the wrong context (30_encoding.md R59, 60_exceptions.md R151). Raised when a command is
  admitted. Safe. -/
  | wrongContext
  /-- The range of a CHECK or DECF32 leaves its buffer (30_encoding.md R61). Raised by their meanings. Safe. -/
  | rangeLeavesBuffer
  /-- The range of a stand-alone CHECK or DECF32 lies in the write-active buffer (30_encoding.md R61). Raised by their
  meanings. Safe. -/
  | writeActiveBuffer
  /-- TOFIXED with `q > 127` (30_encoding.md R61, 44_fixed_point.md R110). Raised by its meaning. Safe. -/
  | qTooLarge
  deriving DecidableEq, Repr

end Sys2Proof.Machine

namespace Sys2Proof.Machine

/-- The state. The first eight fields are the tuple of 10_state.md R10; the others are the model's own (INVENTORY.md,
'## State'). -/
structure State where
  /-- The bytes of `buf` stored since RESET, by flat address; the form is `Memory.wf`. -/
  mem : List Host.Cell
  /-- `sel`: the index of the write-active buffer (R12). -/
  sel : BitVec 1
  /-- `wr_ptr`: the write index, 0 to 256 (R14). -/
  wrPtr : BitVec 9
  /-- `x[0..8]`: the SensorReading registers (R15). -/
  x : Vector (BitVec 32) 9
  /-- `ovr`: the sticky overrun flag (R18). -/
  ovr : Bool
  /-- `irq_pend`: data is available and not acknowledged (R19). -/
  irqPend : Bool
  /-- `rxq`: the receive queue, head first (R20). -/
  rxq : List (BitVec 8)
  /-- The result outputs of the consumer's latest operation (30_encoding.md R57). Log entry 3. -/
  out : Output
  /-- The interrupt service has been entered and has not returned (60_exceptions.md R145, R146). Log entry 8. -/
  inService : Bool
  /-- The model argument DRAIN_ATOMIC (00_scope.md R6). Log entry 7. -/
  drainAtomic : Bool
  /-- How many FX_NONFINITE values have been drawn. Log entry 5. -/
  draws : Nat
  /-- How many RESET events have happened: which BUF_INIT is in force. Log entry 4. -/
  resets : Nat
  /-- The moves still to be taken, in order (20_memory.md R38). Log entry 1. -/
  moves : List Move
  deriving DecidableEq, Repr

/-- The state after reset (10_state.md R24). Nothing has been stored, so every buffer byte is BUF_INIT; no move is
listed. The values of the model's own fields are named in log entries 1, 3, 4, 5, 7 and 8. -/
def State.reset : State where
  mem := []
  sel := 0
  wrPtr := 0
  x := Vector.replicate 9 0
  ovr := false
  irqPend := false
  rxq := []
  out := .none
  inService := false
  drainAtomic := false
  draws := 0
  resets := 0
  moves := []

end Sys2Proof.Machine
end

