-- ==== Sys2Proof/Machine/Ops.lean ====
section
/-!
DEFINITION. The named operations over memory and registers: the byte memory, the write-active store, the handover of
SWAP, the interrupt service's entry and return, and the two environment events.
-/

namespace Sys2Proof.Machine

/-- The byte stored at an address, if any store has reached it since RESET. -/
def Memory.find : List Host.Cell → Nat → Option Byte
  | [], _ => none
  | c :: m, a => if c.1 = a then some c.2 else Memory.find m a

/-- Store a byte, keeping the addresses strictly rising. -/
def Memory.insert : List Host.Cell → Nat → Byte → List Host.Cell
  | [], a, v => [(a, v)]
  | c :: m, a, v =>
    if a < c.1 then (a, v) :: c :: m
    else if a = c.1 then (a, v) :: m
    else c :: Memory.insert m a v

/-- The canonical form: addresses strictly rising and inside the 512 bytes of 20_memory.md R30. An unlisted address
reads as a free value, which no listed byte is known to equal, so every byte may be listed (log entry 4). -/
abbrev Memory.wf (m : List Host.Cell) : Prop :=
  m.Pairwise (fun c d => c.1 < d.1) ∧ ∀ c ∈ m, c.1 < 512

/-- The flat address of byte `i` of buffer `k` (20_memory.md R30). -/
def flat (k : BitVec 1) (i : Nat) : Addr := BitVec.ofNat 9 (Config.bufSize * k.toNat + i)

/-- `MemRead(a, 1)` (00_scope.md R7). An unlisted byte is BUF_INIT: the free value of the RESET in force. -/
def State.load (s : State) (a : Addr) : Byte :=
  (Memory.find s.mem a.toNat).getD (Config.bufInit s.resets a.toNat)

/-- `MemWrite(a, 1, v)` (00_scope.md R7). -/
def State.store (s : State) (a : Addr) (v : Byte) : State :=
  { s with mem := Memory.insert s.mem a.toNat v }

/-- The `n` bytes at `a`, `a+1`, …: `MemRead(a + j, 1)` for `j < n`. -/
def State.loads (s : State) (a : Addr) (n : Nat) : List Byte :=
  (List.range n).map fun j => s.load (a + BitVec.ofNat 9 j)

/-- `MemRead(a, 4)`: four byte loads, the byte at the lowest address most significant (20_memory.md R33). -/
def State.load32 (s : State) (a : Addr) : Pattern :=
  s.load a ++ s.load (a + 1) ++ s.load (a + 2) ++ s.load (a + 3)

/-- Register read `x[i]` (00_scope.md R7). -/
def State.reading (s : State) (i : Fin 9) : Pattern := s.x[i]

/-- Register write `x[i] <- v` (00_scope.md R7). -/
def State.setReading (s : State) (i : Fin 9) (v : Pattern) : State := { s with x := s.x.set i v }

/-- Answer on the result outputs (30_encoding.md R57). -/
def State.answer (s : State) (o : Output) : State := { s with out := o }

/-- Where the next stored byte goes: `256*sel + wr_ptr` (20_memory.md R31). -/
def State.writeAddr (s : State) : Addr := flat s.sel s.wrPtr.toNat

/-- The body of WRACT, one atomic step (40_double_buffer.md R70): store and count, or drop the byte and flag it. -/
def State.append (s : State) (b : Byte) : State :=
  if s.wrPtr.toNat < Config.bufSize then
    { s.store s.writeAddr b with wrPtr := s.wrPtr + 1 }
  else
    { s with ovr := true }

/-- The body of SWAP, one atomic step (40_double_buffer.md R71): flip the selector and clear the write index. The
buffer handed over is the old `sel`. -/
def State.handOver (s : State) : State := { s with sel := ~~~ s.sel, wrPtr := 0 }

/-- Interrupt entry: nothing is saved and nothing is changed (60_exceptions.md R145). The model marks that the service
has been entered. -/
def State.enterService (s : State) : State := { s with inService := true }

/-- Interrupt return, the RXACK step: clears the condition and restores nothing (41_frame_receiver.md R82,
60_exceptions.md R146). -/
def State.leaveService (s : State) : State := { s with irqPend := false, inService := false }

/-- The RXB step on a queue whose head is `b` and whose tail is `rest` (41_frame_receiver.md R81). -/
def State.receive (s : State) (b : Byte) (rest : List Byte) : State :=
  ({ s with rxq := rest }.append b).enterService

/-- The drain loop of RXIRQ: RXB until the given queue contents are used up (41_frame_receiver.md R83). -/
def State.drain : List Byte → State → State
  | [], s => s
  | b :: rest, s => State.drain rest (s.receive b rest)

/-- ENVPUSH (41_frame_receiver.md R80). -/
def State.push (s : State) (b : Byte) : State := { s with rxq := s.rxq ++ [b], irqPend := true }

/-- RESET (70_reset_and_hazards.md R160): every piece of the block's state takes its value of 10_state.md R24, and the
buffers become a BUF_INIT of their own. The model argument, the count of draws and the moves to come stay. -/
def State.resetEvent (s : State) : State :=
  { State.reset with
    drainAtomic := s.drainAtomic, draws := s.draws, resets := s.resets + 1, moves := s.moves }

end Sys2Proof.Machine
end

