-- ==== Sys2Proof/Machine/Operands.lean ====
section
/-!
DEFINITION. The operand forms: which addresses a stand-alone load may name, and the number a binary32 operand stands
for, in the integer form of 44_fixed_point.md R121.
-/

namespace Sys2Proof.Machine

/-- The address lies in the read buffer, `a[8] = ~sel` (30_encoding.md R61, 40_double_buffer.md R75). -/
def State.inReadBuffer (s : State) (a : Addr) : Bool := bufferOf a == ~~~ s.sel

/-- Sign bit of a binary32 pattern (30_encoding.md R54, which the spec marks as general knowledge; log entry 14). -/
def signBit (p : Pattern) : Bool := p.getLsbD 31

/-- Biased exponent field `e = p[30:23]` (30_encoding.md R54). -/
def expField (p : Pattern) : Nat := (p.extractLsb' 23 8).toNat

/-- Fraction field `f = p[22:0]` (30_encoding.md R54). -/
def fracField (p : Pattern) : Nat := (p.extractLsb' 0 23).toNat

/-- The significand `m` of 44_fixed_point.md R121: `f` for a zero or subnormal, `2^23 + f` for a normal number. -/
def significand (p : Pattern) : Nat := if expField p = 0 then fracField p else 2 ^ 23 + fracField p

/-- The exponent that goes with the significand: a subnormal has the exponent of `e = 1` (30_encoding.md R54). -/
def scaleField (p : Pattern) : Nat := if expField p = 0 then 1 else expField p

/-- The product `value * 2^q` is a finite binary32 number: neither NaN nor an infinity, and `q + e <= 254`
(44_fixed_point.md R121 (2)). -/
def productFinite (p : Pattern) (q : Nat) : Bool := expField p ≠ 255 && q + expField p ≤ 254

/-- `|T|`: the magnitude of `value * 2^q` rounded toward zero, `m * 2^sh` or `floor(m / 2^(-sh))` with
`sh = q + e - 150` (44_fixed_point.md R121 (2); a subnormal at `q = 127` can reach 1, log entry 13). -/
def truncMagnitude (p : Pattern) (q : Nat) : Nat :=
  if 150 ≤ q + scaleField p then significand p * 2 ^ (q + scaleField p - 150)
  else significand p / 2 ^ (150 - (q + scaleField p))

/-- `T = trunc(value * 2^q)` (44_fixed_point.md R110). -/
def truncProduct (p : Pattern) (q : Nat) : Int :=
  if signBit p then -(truncMagnitude p q : Int) else truncMagnitude p q

/-- `wrap16(T)`: the low 16 bits of `T` in two's complement (00_scope.md R7). -/
def wrap16 (t : Int) : BitVec 16 := BitVec.ofInt 16 t

/-- The Q factor bound to the accessor of `x[i]` (44_fixed_point.md R111). -/
def qFactor (i : Fin 9) : Nat := if i.val < 6 then Config.qMotion else Config.qOrient

end Sys2Proof.Machine
end

