-- ==== Sys2Proof/Machine/Flags.lean ====
section
/-!
DEFINITION. The flag computations: the overflow output of a conversion, and the two running sums whose comparison gives
a checksum's validity. (`ovr`, the one flag that is state, is set in `State.append`.)
-/

namespace Sys2Proof.Machine

/-- `ovf` of a conversion whose integer `T` was formed (44_fixed_point.md R110). -/
def overflows (t : Int) : Bool := t < -32768 || t > 32767

/-- One iteration of the checksum loop: `sum1` first, then `sum2` with the new `sum1`, both modulo 256
(42_checksum.md R90, R91). -/
def fletcherStep (sums : Byte × Byte) (d : Byte) : Byte × Byte := (sums.1 + d, sums.2 + (sums.1 + d))

/-- `sum1` and `sum2` over the covered bytes (42_checksum.md R90). -/
def fletcher (covered : List Byte) : Byte × Byte :=
  covered.foldl fletcherStep (Config.sumStart, Config.sumStart)

/-- Validity of a range given as its bytes: the last two equal the sums of the others; a range of fewer than two bytes
is invalid (42_checksum.md R90, R92). -/
def rangeValid (d : List Byte) : Bool :=
  if d.length < 2 then false
  else
    let sums := fletcher (d.take (d.length - 2))
    d[d.length - 2]? == some sums.1 && d[d.length - 1]? == some sums.2

end Sys2Proof.Machine
end

