-- ==== Sys2Proof/Machine/Converter.lean ====
section
/-!
DEFINITION. The fixed-point converter: TOFIXED and the nine accessors (44_fixed_point.md).
-/

namespace Sys2Proof.Machine

/-- The conversion of R110: the wrapped integer and its overflow output, or, when the product is not a finite binary32
number, a fresh free value with `ovf = 1`. -/
def State.convert (s : State) (p : Pattern) (q : Nat) : State :=
  if productFinite p q then
    s.answer (.fixed (wrap16 (truncProduct p q)) (overflows (truncProduct p q)))
  else
    { s.answer (.fixed (Config.fxNonfinite s.draws) true) with draws := s.draws + 1 }

/-- The accessor of register `x[i]` (R111). -/
def State.access (s : State) (i : Fin 9) : State := s.convert (s.reading i) (qFactor i)

/-- TOFIXED (R110); `q > 127` is refused (30_encoding.md R61). -/
def execTofixed (p : Pattern) (q : BitVec 8) (s : State) : Host.Outcome State Fault Refusal :=
  if !qAdmitted q then .refused .qTooLarge else .next (s.convert p q.toNat)

/-- FXACCX (R112): linear acceleration X in Q11. -/
def execFxaccx (s : State) : Host.Outcome State Fault Refusal := .next (s.access 0)

/-- FXACCY (R113): linear acceleration Y in Q11. -/
def execFxaccy (s : State) : Host.Outcome State Fault Refusal := .next (s.access 1)

/-- FXACCZ (R114): linear acceleration Z in Q11. -/
def execFxaccz (s : State) : Host.Outcome State Fault Refusal := .next (s.access 2)

/-- FXGYRX (R115): angular rate X in Q11. -/
def execFxgyrx (s : State) : Host.Outcome State Fault Refusal := .next (s.access 3)

/-- FXGYRY (R116): angular rate Y in Q11. -/
def execFxgyry (s : State) : Host.Outcome State Fault Refusal := .next (s.access 4)

/-- FXGYRZ (R117): angular rate Z in Q11. -/
def execFxgyrz (s : State) : Host.Outcome State Fault Refusal := .next (s.access 5)

/-- FXROLL (R118): roll in Q13. -/
def execFxroll (s : State) : Host.Outcome State Fault Refusal := .next (s.access 6)

/-- FXPITCH (R119): pitch in Q13. -/
def execFxpitch (s : State) : Host.Outcome State Fault Refusal := .next (s.access 7)

/-- FXYAW (R120): yaw in Q13. -/
def execFxyaw (s : State) : Host.Outcome State Fault Refusal := .next (s.access 8)

end Sys2Proof.Machine
end

