-- ==== Sys2Proof/Machine/DoubleBuffer.lean ====
section
/-!
DEFINITION. The double buffer: WRACT and SWAP (40_double_buffer.md).
-/

namespace Sys2Proof.Machine

/-- WRACT (R70). It has no enabling condition: it looks at neither `irq_pend` nor `rxq`. -/
def execWract (b : Byte) (s : State) : Host.Outcome State Fault Refusal := .next (s.append b)

/-- SWAP (R71): answers the index of the buffer that was write-active before the step. -/
def execSwap (s : State) : Host.Outcome State Fault Refusal := .next (s.handOver.answer (.buffer s.sel))

end Sys2Proof.Machine
end

