-- ==== Sys2Proof/Machine/Checksum.lean ====
section
/-!
DEFINITION. The checksum validator: CHECK (42_checksum.md).
-/

namespace Sys2Proof.Machine

/-- CHECK's result on the `len` bytes from `a` (R90). -/
def State.checkRange (s : State) (a : Addr) (len : Nat) : Bool := rangeValid (s.loads a len)

/-- CHECK issued stand-alone (R90, 30_encoding.md R61), its byte loads taken as one step. Log entry 9. -/
def execCheck (a len : BitVec 9) (s : State) : Host.Outcome State Fault Refusal :=
  if !rangeInBuffer a len.toNat then .refused .rangeLeavesBuffer
  else if !s.inReadBuffer a then .refused .writeActiveBuffer
  else .next (s.answer (.valid (s.checkRange a len.toNat)))

end Sys2Proof.Machine
end

