-- ==== Sys2Proof/Machine/Parser.lean ====
section
/-!
DEFINITION. The frame parser: DECF32 and PARSE (43_frame_parser.md).
-/

namespace Sys2Proof.Machine

/-- DECF32 issued stand-alone (R100, 30_encoding.md R61). -/
def execDecf32 (a : BitVec 9) (s : State) : Host.Outcome State Fault Refusal :=
  if !rangeInBuffer a 4 then .refused .rangeLeavesBuffer
  else if !s.inReadBuffer a then .refused .writeActiveBuffer
  else .next (s.answer (.pattern (s.load32 a)))

/-- Decode the listed fields of the frame in buffer `k` into their registers, one after the other (R101). -/
def State.latch (k : BitVec 1) : List (Fin 9) → State → State
  | [], s => s
  | i :: rest, s => State.latch k rest (s.setReading i (s.load32 (flat k (Config.fieldOffset i))))

/-- One half of PARSE: check the sub-frame of `len` bytes at `base` of buffer `k`, and latch its fields if it is valid;
otherwise the registers keep their last good values (R101, 10_state.md R17). -/
def State.parseSubframe (k : BitVec 1) (base len : Nat) (fields : List (Fin 9)) (s : State) : State :=
  if s.checkRange (flat k base) len then State.latch k fields s else s

/-- PARSE (R101), taken as one step placed at its SWAP (R103). It has no result. Log entry 9. -/
def execParse (s : State) : Host.Outcome State Fault Refusal :=
  .next
    ((((s.handOver).parseSubframe s.sel Config.sf1Base Config.sf1Len Config.motionFields).parseSubframe
      s.sel Config.sf2Base Config.sf2Len Config.orientFields).answer .none)

end Sys2Proof.Machine
end

