-- ==== Sys2Proof/Machine/Printer.lean ====
section
/-!
DEFINITION. The diagnostic printer: PRINT (45_diagnostic.md).
-/

namespace Sys2Proof.Machine

/-- PRINT (R130): reads the nine registers, writes no state, answers a text the spec does not give. -/
def execPrint (s : State) : Host.Outcome State Fault Refusal := .next (s.answer (.text (Config.printText s.x)))

end Sys2Proof.Machine
end

