-- ==== Sys2Proof/Machine/Receiver.lean ====
section
/-!
DEFINITION. The frame receiver: RXB, RXACK and RXIRQ (41_frame_receiver.md).
-/

namespace Sys2Proof.Machine

/-- RXB (R81): enabled when `irq_pend = 1` and the queue is not empty. -/
def execRxb (s : State) : Host.Outcome State Fault Refusal :=
  match s.irqPend, s.rxq with
  | true, b :: rest => .next (s.receive b rest)
  | _, _ => .fault .notEnabled

/-- RXACK (R82): enabled when `irq_pend = 1` and the queue is empty. -/
def execRxack (s : State) : Host.Outcome State Fault Refusal :=
  match s.irqPend, s.rxq with
  | true, [] => .next s.leaveService
  | _, _ => .fault .notEnabled

/-- RXIRQ (R83): entered when `irq_pend = 1` (60_exceptions.md R144); the drain, then RXACK, with nothing in between.
The executions in which other agents' steps fall between are the ones that list its RXB and RXACK steps one by one
(30_encoding.md R64). Log entry 7. -/
def execRxirq (s : State) : Host.Outcome State Fault Refusal :=
  if s.irqPend then .next (State.drain s.rxq s).leaveService else .fault .notEnabled

end Sys2Proof.Machine
end

