-- ==== Sys2Proof/Machine/Dispatch.lean ====
section
/-!
DEFINITION. Every operation's meaning, by its constructor.
-/

namespace Sys2Proof.Machine

def exec (i : Instr) (s : State) : Host.Outcome State Fault Refusal :=
  match i with
  | .wract b => Sys2Proof.Machine.execWract b s
  | .swap => Sys2Proof.Machine.execSwap s
  | .rxb => Sys2Proof.Machine.execRxb s
  | .rxack => Sys2Proof.Machine.execRxack s
  | .rxirq => Sys2Proof.Machine.execRxirq s
  | .check a len => Sys2Proof.Machine.execCheck a len s
  | .decf32 a => Sys2Proof.Machine.execDecf32 a s
  | .parse => Sys2Proof.Machine.execParse s
  | .tofixed p q => Sys2Proof.Machine.execTofixed p q s
  | .fxaccx => Sys2Proof.Machine.execFxaccx s
  | .fxaccy => Sys2Proof.Machine.execFxaccy s
  | .fxaccz => Sys2Proof.Machine.execFxaccz s
  | .fxgyrx => Sys2Proof.Machine.execFxgyrx s
  | .fxgyry => Sys2Proof.Machine.execFxgyry s
  | .fxgyrz => Sys2Proof.Machine.execFxgyrz s
  | .fxroll => Sys2Proof.Machine.execFxroll s
  | .fxpitch => Sys2Proof.Machine.execFxpitch s
  | .fxyaw => Sys2Proof.Machine.execFxyaw s
  | .print => Sys2Proof.Machine.execPrint s

end Sys2Proof.Machine
end

