-- ==== Sys2Proof/Machine/Issue.lean ====
section
/-!
DEFINITION. What a move does: a command is decoded, admitted and executed; an environment event acts. And the
producer's own step when nothing is listed.
-/

namespace Sys2Proof.Machine

/-- With DRAIN_ATOMIC = true no consumer step falls inside a drain: between an RXB and the RXACK that ends the service
(00_scope.md R6, 41_frame_receiver.md R83, 95_test_vectors.md P4). -/
def State.consumerBlocked (s : State) : Bool := s.inService && s.drainAtomic

/-- A context presents a command: a reserved code and an operation of the other context are refused (30_encoding.md
R59, 60_exceptions.md R151); otherwise the operation executes. -/
def issue (by_ : Ctx) (c : Signals) (s : State) : Host.Outcome State Fault Refusal :=
  match decode c with
  | .error (.reserved cmd) => .refused (.reservedCode cmd)
  | .ok i =>
    if i.ctx ≠ by_ then .refused .wrongContext
    else if by_ = .consumer ∧ s.consumerBlocked = true then .fault .drainInProgress
    else exec i s

/-- One move (20_memory.md R38, 70_reset_and_hazards.md R171). -/
def takeMove (m : Move) (s : State) : Host.Outcome State Fault Refusal :=
  match m with
  | .envPush b => .next (s.push b)
  | .reset => .next s.resetEvent
  | .readOvr => .next s
  | .takeResult => .next s
  | .issue by_ c => issue by_ c s

/-- The producer's step of the interrupt service while `irq_pend = 1` (60_exceptions.md R144): with DRAIN_ATOMIC = true
the whole of RXIRQ, otherwise the one of RXB and RXACK that is enabled (41_frame_receiver.md R82). -/
def serve (s : State) : Host.Outcome State Fault Refusal :=
  if s.irqPend then
    if s.drainAtomic then exec .rxirq s
    else if s.rxq = [] then exec .rxack s
    else exec .rxb s
  else .fault .idle

/-- The list of moves once a command word, in the numbering of spec/opcode_table.json, is presented first, by the
context its code belongs to. -/
def presentWord (nbits w : Nat) (moves : List Move) : List Move :=
  let c := Signals.ofWord nbits w
  let by_ := match decode c with
    | .ok i => i.ctx
    | .error _ => .consumer
  .issue by_ c :: moves

end Sys2Proof.Machine
end

