-- ==== Sys2Proof/Machine/Step.lean ====
section
/-!
DEFINITION. One step of the block: the next listed move, or, when none is listed, the producer's own step (weak
fairness, 70_reset_and_hazards.md R169).
-/

namespace Sys2Proof.Machine

/-- One atomic step (20_memory.md R38). -/
def step (s : State) : Host.Outcome State Fault Refusal :=
  match s.moves with
  | m :: rest => takeMove m { s with moves := rest }
  | [] => serve s

/-- The state with a command word presented as the next move. Log entries 1 and 2. -/
def State.withFetchWord (s : State) (nbits w : Nat) : State := { s with moves := presentWord nbits w s.moves }

end Sys2Proof.Machine
end

