-- ==== Sys2Proof/Safety.lean ====
section
/-!
DEFINITION. The notions claims are stated in: the invariant, quiescence, which moves exchange the buffers, and the
exact real semantics of a conversion.
-/

namespace Sys2Proof

open Machine

/-- The invariant of the block: memory in its canonical form, `wr_ptr` at most 256 (10_state.md R14), a non-empty queue
means `irq_pend = 1` (41_frame_receiver.md R82), and the service is in progress only while `irq_pend = 1`. -/
def Machine.State.Inv (s : State) : Prop :=
  Memory.wf s.mem ∧ s.wrPtr.toNat ≤ 256 ∧ (s.rxq ≠ [] → s.irqPend = true) ∧ (s.inService = true → s.irqPend = true)

/-- Nothing is left to drain (70_reset_and_hazards.md R170). No consumer operation is ever half-way in the model. -/
def Machine.State.Quiescent (s : State) : Prop := s.rxq = [] ∧ s.irqPend = false

/-- A move after which the two buffers have the roles they had before: neither RESET nor a command SWAP or PARSE. -/
def keepsRoles : Move → Bool
  | .reset => false
  | .issue _ c => c.cmd != 0x02 && c.cmd != 0x08
  | .envPush _ | .readOvr | .takeResult => true

/-- A command that carries an operation, as the context the operation belongs to presents it. -/
def command (i : Instr) : Move := .issue i.ctx (encode i)

/-- The bytes of buffer `k` from offset `o`, `n` of them, as the loads of the consumer see them. -/
def frameBytes (s : State) (k : BitVec 1) (o n : Nat) : List Byte :=
  (List.range n).map fun j => s.load (flat k (o + j))

/-- The number that four bytes from address `a` stand for, most significant first (20_memory.md R33). -/
def bigEndian (s : State) (a : Addr) : Nat :=
  (s.load a).toNat * 2 ^ 24 + (s.load (a + 1)).toNat * 2 ^ 16 + (s.load (a + 2)).toNat * 2 ^ 8 + (s.load (a + 3)).toNat

/-- `i` is the accessor of `x[j]` with Q factor `q` and command code `code`: it has no operand, always answers a next
state, answers what TOFIXED answers on the register, and writes nothing else (44_fixed_point.md R111). -/
def IsAccessor (i : Instr) (code : BitVec 8) (j : Fin 9) (q : BitVec 8) : Prop :=
  (∀ c : Signals, c.cmd = code → decode c = .ok i) ∧ i.ctx = .consumer ∧
  ∀ s : State, ∃ t, exec i s = .next t ∧ exec (.tofixed (s.reading j) q) s = .next t ∧
    t = { s with out := t.out, draws := t.draws }

/-- `val32(p)`: the real number a finite binary32 pattern denotes (30_encoding.md R54). -/
def val32 (p : Pattern) : ℚ :=
  let f : ℚ := fracField p
  let magnitude : ℚ :=
    if expField p = 0 then f * (2 : ℚ) ^ (-149 : ℤ) else (2 ^ 23 + f) * (2 : ℚ) ^ ((expField p : ℤ) - 150)
  if signBit p then -magnitude else magnitude

/-- `trunc(r)`: the integer part, rounded toward zero (00_scope.md R7). -/
def truncRat (r : ℚ) : Int := if r < 0 then ⌈r⌉ else ⌊r⌋

end Sys2Proof
end

