-- ==== Sys2Proof/Certificates/Slice0/Obligations.lean ====
section
/-!
DEFINITION. The statements for the provers. Each docstring names the rule of spec/ it formalises, and says where a
clause rests on a decision of the spec or on the model's choice.
-/

open Sys2Proof Sys2Proof.Machine

/-! ### Decoding and encoding -/

/-- Words written out from R58's codes, in the numbering of log entry 2, are decoded to the operation they stand for. -/
def Obligations.TableWordsDecode : Prop :=
  decodeTableWord 16 0x7501 = some (.wract 0x75) ∧ decodeTableWord 8 0x02 = some .swap ∧
  decodeTableWord 8 0x05 = some .rxirq ∧ decodeTableWord 26 0x450006 = some (.check 0x100 34) ∧
  decodeTableWord 17 0x10607 = some (.decf32 0x106) ∧ decodeTableWord 8 0x08 = some .parse ∧
  decodeTableWord 48 0x0B3F80000009 = some (.tofixed 0x3F800000 11) ∧ decodeTableWord 8 0x18 = some .fxyaw ∧
  decodeTableWord 8 0x20 = some .print ∧ decodeTableWord 8 0x21 = none

/-- Decode and encode agree, for every operation and every operand value: as signals, and as the numbered command word
(the numbering is the model's choice, log entry 2). -/
def Obligations.DecodeOfEncode : Prop :=
  ∀ i : Instr, decode (encode i) = .ok i ∧ decodeTableWord i.word.1 i.word.2 = some i

/-- Decoding drops and invents nothing: what is decoded, encoded again, has the presented code and exactly the presented
operand inputs that the code's format names (R58). -/
def Obligations.DecodedCarriesCode : Prop :=
  ∀ (c : Signals) (i : Instr), decode c = .ok i →
    encode i = { cmd := c.cmd, b := if c.cmd = 0x01 then c.b else 0,
                 a := if c.cmd = 0x06 ∨ c.cmd = 0x07 then c.a else 0, len := if c.cmd = 0x06 then c.len else 0,
                 p := if c.cmd = 0x09 then c.p else 0, q := if c.cmd = 0x09 then c.q else 0 }

/-- R59: every code not listed in R58 is refused, whoever presents it, and an operation presented by the other context is
refused. -/
def Obligations.ReservedAndWrongContextRefused : Prop :=
  (∀ (by_ : Ctx) (c : Signals) (rest : List Move) (s : State), s.moves = .issue by_ c :: rest →
    (c.cmd.toNat = 0 ∨ (0x0A ≤ c.cmd.toNat ∧ c.cmd.toNat ≤ 0x0F) ∨ (0x19 ≤ c.cmd.toNat ∧ c.cmd.toNat ≤ 0x1F) ∨
      0x21 ≤ c.cmd.toNat) →
    step s = .refused (.reservedCode c.cmd)) ∧
  (∀ (by_ : Ctx) (i : Instr) (c : Signals) (rest : List Move) (s : State), s.moves = .issue by_ c :: rest →
    decode c = .ok i → i.ctx ≠ by_ → step s = .refused .wrongContext)

/-! ### The step -/

/-- A listed command that decodes to an operation of the presenting context runs that operation, with the move used up;
the one condition is that a consumer command does not fall inside a drain when DRAIN_ATOMIC = true. That a step takes the
first listed move is the model's choice (log entry 1), and the condition is its rendering of DRAIN_ATOMIC (log entry 7);
R57 and R151 give the presented command and the context that may present it. -/
def Obligations.StepRunsDecoded : Prop :=
  ∀ (by_ : Ctx) (c : Signals) (i : Instr) (rest : List Move) (s : State),
    s.moves = .issue by_ c :: rest → decode c = .ok i → i.ctx = by_ →
    (i.ctx = .consumer → s.inService = true → s.drainAtomic = false) →
    step s = exec i { s with moves := rest }

/-- A command word presented with `withFetchWord` is the operation the very next step runs, for every operation and
operand, and the moves listed before stay listed after it. -/
def Obligations.PresentedWordRuns : Prop :=
  ∀ (i : Instr) (s : State), (i.ctx = .consumer → s.inService = true → s.drainAtomic = false) →
    step (s.withFetchWord i.word.1 i.word.2) = exec i s

/-- With DRAIN_ATOMIC = true no consumer operation executes between an RXB and the RXACK that ends the service; with
false nothing keeps it out (00_scope.md R6, 41_frame_receiver.md R83; the model's rendering, log entry 7). -/
def Obligations.ConsumerKeptOutOfAtomicDrain : Prop :=
  ∀ (i : Instr) (rest : List Move) (s : State), i.ctx = .consumer → s.moves = command i :: rest →
    s.inService = true →
    step s = if s.drainAtomic then .fault .drainInProgress else exec i { s with moves := rest }

/-- R157: an idle consumer and a disabled producer have no step (the model stops there by name, log entry 10). -/
def Obligations.QuiescentHasNoStep : Prop :=
  ∀ s : State, s.moves = [] → s.irqPend = false → step s = .fault .idle

/-! ### Reset and the environment -/

/-- R24: the values after reset. The buffers are the unspecified BUF_INIT: nothing is stored, and every byte is the free
value. The producer is disabled, and every consumer operation answers, on every operand inside its domain (the read
buffer is `buf[1]`). -/
def Obligations.ResetValues : Prop :=
  (∀ j : Fin 9, State.reset.reading j = 0x00000000) ∧ State.reset.sel = 0 ∧ State.reset.wrPtr = 0 ∧
  State.reset.ovr = false ∧ State.reset.irqPend = false ∧ State.reset.rxq = [] ∧
  (∀ c : Addr, Memory.find State.reset.mem c.toNat = none ∧ State.reset.load c = Config.bufInit State.reset.resets c.toNat) ∧
  (∀ i ∈ ([.rxb, .rxack, .rxirq] : List Instr), exec i State.reset = .fault .notEnabled) ∧
  (∀ i : Instr, i.ctx = .consumer → i.wellFormed = true → (∀ a len, i = .check a len → 256 ≤ a.toNat) →
    (∀ a, i = .decf32 a → 256 ≤ a.toNat) → ∃ t, exec i State.reset = .next t)

/-- RESET (R160) is one step from any state that puts every piece of the block's state at its value of R24; each byte
becomes the BUF_INIT of that RESET (a fresh one per RESET is the model's choice, log entry 4: R160 also lets a model keep
the old contents). Until the next SWAP or PARSE (or RESET) the consumer can load only from `buf[1]`.
RESET is the only step that clears `ovr`. -/
def Obligations.ResetEventClearsAll : Prop :=
  (∀ (s : State) (rest : List Move), s.moves = .reset :: rest → ∃ t, step s = .next t ∧
    (∀ j : Fin 9, t.reading j = 0) ∧ t.sel = 0 ∧ t.wrPtr = 0 ∧ t.ovr = false ∧ t.irqPend = false ∧ t.rxq = [] ∧
    (∀ c : Addr, t.load c = Config.bufInit (s.resets + 1) c.toNat) ∧ t.moves = rest ∧
    ∀ (n : Nat) (u : State), (∀ m ∈ rest.take n, keepsRoles m = true) → Host.Core.run core n t = .next u →
      (∀ a : Addr, a.toNat % 256 ≤ 252 → ((∃ v, exec (.decf32 a) u = .next v) ↔ 256 ≤ a.toNat)) ∧
      (∀ a len : BitVec 9, a.toNat % 256 + len.toNat ≤ 256 →
        ((∃ v, exec (.check a len) u = .next v) ↔ 256 ≤ a.toNat))) ∧
  (∀ s t : State, step s = .next t → s.ovr = true → t.ovr = false → s.moves.head? = some .reset)

/-- ENVPUSH (R80): appends at the tail and sets `irq_pend`, whatever the state; it is the only step that makes `rxq`
longer and the only one that sets `irq_pend`. -/
def Obligations.EnvPushAppendsAndAlone : Prop :=
  (∀ (s : State) (b : Byte) (rest : List Move), s.moves = .envPush b :: rest →
    step s = .next { s with rxq := s.rxq ++ [b], irqPend := true, moves := rest }) ∧
  (∀ s t : State, step s = .next t →
    (s.rxq.length < t.rxq.length ∨ (s.irqPend = false ∧ t.irqPend = true)) →
    ∃ b, s.moves.head? = some (.envPush b))

/-- R171: sampling `ovr` and taking a result change nothing. -/
def Obligations.ObservationsChangeNothing : Prop :=
  ∀ (s : State) (rest : List Move), (s.moves = .readOvr :: rest ∨ s.moves = .takeResult :: rest) →
    step s = .next { s with moves := rest }

/-! ### The double buffer -/

/-- WRACT (R70), in every state: with room, the byte is stored at `256*sel + wr_ptr` and counted; otherwise it is dropped
and `ovr` is set. No other byte of either buffer, and nothing else, changes. -/
def Obligations.WractStoresOrFlags : Prop :=
  ∀ (s : State) (b : Byte), decode { cmd := 0x01, b := b } = .ok (.wract b) ∧ (Instr.wract b).ctx = .producer ∧
    ∃ t, exec (.wract b) s = .next t ∧
      (if s.wrPtr.toNat < 256 then
        t.load (flat s.sel s.wrPtr.toNat) = b ∧ (∀ c, c ≠ flat s.sel s.wrPtr.toNat → t.load c = s.load c) ∧
        t.wrPtr.toNat = s.wrPtr.toNat + 1 ∧ t.ovr = s.ovr
      else
        (∀ c, t.load c = s.load c) ∧ t.wrPtr = s.wrPtr ∧ t.ovr = true) ∧
      t = { s with mem := t.mem, wrPtr := t.wrPtr, ovr := t.ovr }

/-- SWAP (R71), in every state: answers the old selector, flips it and clears the write index in the same step; no byte,
no flag and nothing else changes. Until the consumer exchanges the buffers again (or a RESET), no step writes the buffer
handed over (corner case 3). -/
def Obligations.SwapHandsOver : Prop :=
  decode { cmd := 0x02 } = .ok .swap ∧ Instr.swap.ctx = .consumer ∧
  ∀ s : State, ∃ t, exec .swap s = .next t ∧ t.out = .buffer s.sel ∧
    t.sel.toNat = 1 - s.sel.toNat ∧ t.wrPtr = 0 ∧ (∀ c, t.load c = s.load c) ∧
    t = { s with out := t.out, sel := t.sel, wrPtr := t.wrPtr } ∧
    ∀ (n : Nat) (u : State), (∀ m ∈ t.moves.take n, keepsRoles m = true) → Host.Core.run core n t = .next u →
      ∀ c, bufferOf c = s.sel → u.load c = s.load c

/-- R72 (marked derived in the spec): the indices returned after reset are 0, 1, 0, 1, … (the polarity is the spec's
decision D9). -/
def Obligations.SwapsAlternate : Prop :=
  ∀ (n : Nat) (rest : List Move), ∃ t,
    Host.Core.run core (n + 1) { State.reset with moves := List.replicate (n + 1) (command .swap) ++ rest } = .next t ∧
    t.out = .buffer (BitVec.ofNat 1 (n % 2)) ∧ t.moves = rest ∧ t.wrPtr = 0

/-- R74 (marked derived in the spec): a capture window holds the bytes stored in it, in order from offset 0, the rest of
the buffer is stale, and `ovr` is set if there were more than 256. Here the window's bytes are stored by listed WRACTs
and closed by a SWAP. -/
def Obligations.CaptureWindowHoldsItsBytes : Prop :=
  ∀ (s : State) (bs : List Byte) (rest : List Move), s.wrPtr = 0 → (s.inService = true → s.drainAtomic = false) →
    s.moves = bs.map (fun b => command (.wract b)) ++ command .swap :: rest →
    ∃ t, Host.Core.run core (bs.length + 1) s = .next t ∧ t.out = .buffer s.sel ∧ t.moves = rest ∧
      (∀ (j : Nat) (h : j < bs.length), j < 256 → t.load (flat s.sel j) = bs[j]) ∧
      (∀ c, (bufferOf c = s.sel → min bs.length 256 ≤ offsetOf c) → t.load c = s.load c) ∧
      t.ovr = (s.ovr || decide (256 < bs.length)) ∧ t.wrPtr = 0 ∧ t.sel = ~~~ s.sel

/-- DB11, R147 (1): a store and a swap that would start together are taken in either order, and each order puts the byte
in exactly one place. -/
def Obligations.StoreAndSwapSerialise : Prop :=
  ∀ (s : State) (b : Byte) (rest : List Move), s.wrPtr.toNat < 256 → (s.inService = true → s.drainAtomic = false) →
    (∃ t, Host.Core.run core 2 { s with moves := command (.wract b) :: command .swap :: rest } = .next t ∧
      t.load (flat s.sel s.wrPtr.toNat) = b ∧ (∀ c, c ≠ flat s.sel s.wrPtr.toNat → t.load c = s.load c) ∧
      t.sel = ~~~ s.sel ∧ t.wrPtr.toNat = 0 ∧ t.out = .buffer s.sel) ∧
    (∃ t, Host.Core.run core 2 { s with moves := command .swap :: command (.wract b) :: rest } = .next t ∧
      t.load (flat (~~~ s.sel) 0) = b ∧ (∀ c, c ≠ flat (~~~ s.sel) 0 → t.load c = s.load c) ∧
      t.sel = ~~~ s.sel ∧ t.wrPtr.toNat = 1 ∧ t.out = .buffer s.sel)

/-! ### The frame receiver -/

/-- RXB (R81): when enabled it removes the head and does WRACT's work on it in the same step; otherwise it has no step. -/
def Obligations.RxbMovesHead : Prop :=
  decode { cmd := 0x03 } = .ok .rxb ∧ Instr.rxb.ctx = .producer ∧
  (∀ (s : State) (b : Byte) (rest : List Byte), s.irqPend = true → s.rxq = b :: rest →
    ∃ t u, exec .rxb s = .next t ∧ exec (.wract b) { s with rxq := rest } = .next u ∧
      t = { u with inService := t.inService }) ∧
  (∀ s : State, s.irqPend = false ∨ s.rxq = [] → exec .rxb s = .fault .notEnabled)

/-- RXACK (R82): when enabled it clears `irq_pend` and changes no other state of the block; otherwise it has no step.
While `irq_pend = 1` exactly one of RXB and RXACK is enabled. ENVPUSH, RXB and RXACK keep: a non-empty queue means
`irq_pend = 1`. -/
def Obligations.RxackAcknowledges : Prop :=
  decode { cmd := 0x04 } = .ok .rxack ∧ Instr.rxack.ctx = .producer ∧
  (∀ s : State, s.irqPend = true → s.rxq = [] →
    ∃ t, exec .rxack s = .next t ∧ t = { s with irqPend := false, inService := t.inService }) ∧
  (∀ s : State, s.irqPend = false ∨ s.rxq ≠ [] → exec .rxack s = .fault .notEnabled) ∧
  (∀ s : State, s.irqPend = true →
    ((∃ t, exec .rxb s = .next t) ↔ exec .rxack s = .fault .notEnabled) ∧
    ((∃ t, exec .rxack s = .next t) ↔ exec .rxb s = .fault .notEnabled)) ∧
  (∀ (s t : State) (m : Move), (s.rxq ≠ [] → s.irqPend = true) →
    ((∃ b, m = .envPush b) ∨ m = command .rxb ∨ m = command .rxack) → takeMove m s = .next t →
    (t.rxq ≠ [] → t.irqPend = true))

/-- The mark of a service in progress (the model's rendering of R145 and R146, log entry 8): RXB sets it, RXACK and RXIRQ
clear it and so does a RESET, and no other step changes it. -/
def Obligations.ServiceMarked : Prop :=
  (∀ s t : State, exec .rxb s = .next t → t.inService = true) ∧
  (∀ s t : State, exec .rxack s = .next t ∨ exec .rxirq s = .next t → t.inService = false) ∧
  (∀ s t : State, s.moves.head? = some .reset → step s = .next t → t.inService = false) ∧
  (∀ (i : Instr) (s t : State), i ≠ .rxb → i ≠ .rxack → i ≠ .rxirq → exec i s = .next t → t.inService = s.inService) ∧
  (∀ (s t : State) (b : Byte), s.moves.head? = some (.envPush b) → step s = .next t → t.inService = s.inService)

/-- RXIRQ, uninterrupted (R83): the queued bytes are stored in order from `wr_ptr` on, as far as the buffer reaches; the
queue is emptied, the condition acknowledged, `ovr` set if bytes were lost; nothing else changes. Without a pending
condition it has no step. -/
def Obligations.RxirqDrainsQueue : Prop :=
  (∀ s : State, s.irqPend = true → s.wrPtr.toNat ≤ 256 → ∃ t, exec .rxirq s = .next t ∧ t.Quiescent ∧
    (∀ (j : Nat) (h : j < s.rxq.length), s.wrPtr.toNat + j < 256 →
      t.load (flat s.sel (s.wrPtr.toNat + j)) = s.rxq[j]) ∧
    (∀ c, (bufferOf c = s.sel → offsetOf c < s.wrPtr.toNat ∨ s.wrPtr.toNat + s.rxq.length ≤ offsetOf c) →
      t.load c = s.load c) ∧
    t.wrPtr.toNat = min (s.wrPtr.toNat + s.rxq.length) 256 ∧
    t.ovr = (s.ovr || decide (256 < s.wrPtr.toNat + s.rxq.length)) ∧
    t = { s with mem := t.mem, wrPtr := t.wrPtr, ovr := t.ovr, rxq := [], irqPend := false, inService := false }) ∧
  (∀ s : State, s.irqPend = false → exec .rxirq s = .fault .notEnabled)

/-- R64: RXIRQ is defined entirely by RXB and RXACK. Listing its steps one by one, with nothing in between, reaches the
very state of RXIRQ as one step. -/
def Obligations.RxirqEqualsItsSteps : Prop :=
  ∀ (s : State) (rest : List Move), s.irqPend = true →
    s.moves = List.replicate s.rxq.length (command .rxb) ++ command .rxack :: rest →
    Host.Core.run core (s.rxq.length + 1) s = exec .rxirq { s with moves := rest }

/-- With nothing listed, the producer alone empties the queue, acknowledges and becomes quiescent, in as many steps as
there are bytes and one more (one step when DRAIN_ATOMIC = true). The model's rendering of weak fairness, log entry 11. -/
def Obligations.ServiceReachesQuiescence : Prop :=
  ∀ s : State, s.moves = [] → s.irqPend = true →
    ∃ t, Host.Core.run core (if s.drainAtomic then 1 else s.rxq.length + 1) s = .next t ∧ exec .rxirq s = .next t ∧
      t.Quiescent

/-- A drain with other agents' steps inside it (R83; DRAIN_ATOMIC = false), for the schedule RXB for the bytes `pre`, then
ENVPUSH of any bytes `new`, then a SWAP, then RXB until the queue is empty, then RXACK. Wherever the SWAP falls in the
queue, `pre` goes to the old active buffer from `wr_ptr` on, and the rest and the bytes that arrived during the drain go to
the other buffer from offset 0, each as far as its buffer reaches; no other byte changes, and `ovr` is set if a byte was
lost. -/
def Obligations.DrainInterleaves : Prop :=
  ∀ (s : State) (pre post new : List Byte) (rest : List Move), s.irqPend = true → s.rxq = pre ++ post →
    s.drainAtomic = false → s.wrPtr.toNat ≤ 256 →
    s.moves = List.replicate pre.length (command .rxb) ++ new.map Move.envPush ++ command .swap ::
      List.replicate (post.length + new.length) (command .rxb) ++ command .rxack :: rest →
    ∃ t, Host.Core.run core (pre.length + new.length + 1 + (post.length + new.length) + 1) s = .next t ∧
      (∀ (j : Nat) (h : j < pre.length), s.wrPtr.toNat + j < 256 → t.load (flat s.sel (s.wrPtr.toNat + j)) = pre[j]) ∧
      (∀ (j : Nat) (h : j < (post ++ new).length), j < 256 → t.load (flat (~~~ s.sel) j) = (post ++ new)[j]) ∧
      (∀ c, (bufferOf c = s.sel → offsetOf c < s.wrPtr.toNat ∨ s.wrPtr.toNat + pre.length ≤ offsetOf c) →
        (bufferOf c = ~~~ s.sel → (post ++ new).length ≤ offsetOf c) → t.load c = s.load c) ∧
      t.wrPtr.toNat = min (post ++ new).length 256 ∧ t.sel = ~~~ s.sel ∧ t.Quiescent ∧
      t.ovr = (s.ovr || decide (256 < s.wrPtr.toNat + pre.length) || decide (256 < (post ++ new).length)) ∧
      t.moves = rest

/-! ### The checksum validator -/

/-- CHECK on an admitted range (R90, in the closed form of R53 and R91): the last two bytes are the sum and the weighted
sum of the others modulo 256. It writes nothing but its answer. The start value 0 is the spec's decision D7 (log entry
12). -/
def Obligations.CheckComparesFletcherSums : Prop :=
  ∀ (s : State) (a len : BitVec 9), a.toNat % 256 + len.toNat ≤ 256 → a.toNat / 256 = 1 - s.sel.toNat →
    let d : Nat → Nat := fun j => (s.load (a + BitVec.ofNat 9 j)).toNat
    let n := len.toNat - 2
    ∃ v, exec (.check a len) s = .next { s with out := .valid v } ∧
      (v = true ↔ 2 ≤ len.toNat ∧ d n = (∑ j ∈ Finset.range n, d j) % 256 ∧
        d (n + 1) = (∑ j ∈ Finset.range n, (n - j) * d j) % 256)

/-- R92: short ranges are invalid and read no byte (the answer is the same for every memory); a range of two bytes is
valid exactly when both are zero. -/
def Obligations.CheckShortRanges : Prop :=
  ∀ (s : State) (a len : BitVec 9), a.toNat % 256 + len.toNat ≤ 256 → a.toNat / 256 = 1 - s.sel.toNat →
    (len.toNat < 2 → exec (.check a len) s = .next { s with out := .valid false }) ∧
    (len.toNat = 2 → exec (.check a len) s =
      .next { s with out := .valid (decide (s.load a = 0 ∧ s.load (a + 1) = 0)) })

/-- R93 (marked derived in the spec): the values every model must reproduce. -/
def Obligations.ChecksumTableValues : Prop :=
  fletcher [] = (0x00, 0x00) ∧ fletcher [0x01] = (0x01, 0x01) ∧ fletcher [0x01, 0x02] = (0x03, 0x04) ∧
  fletcher [0x01, 0x02, 0x03] = (0x06, 0x0A) ∧ fletcher [0xFF, 0xFF] = (0xFE, 0xFD) ∧
  fletcher [0xFF, 0xFF, 0x01] = (0xFF, 0xFC) ∧ fletcher [0x80, 0x80, 0x80] = (0x80, 0x00) ∧
  fletcher (List.replicate 32 0x00) = (0x00, 0x00) ∧ fletcher (List.replicate 32 0xFF) = (0xE0, 0xF0) ∧
  fletcher ((List.range 20).map fun j => BitVec.ofNat 8 (j + 1)) = (0xD2, 0x04) ∧
  fletcher (List.replicate 20 0x00) = (0x00, 0x00)

/-- R94 (marked derived in the spec): flipping any one bit of any one byte of a valid range, covered or trailer, makes it
invalid. -/
def Obligations.SingleBitFlipDetected : Prop :=
  ∀ (d : List Byte) (i : Nat) (m : Nat) (h : i < d.length), m < 8 → rangeValid d = true →
    rangeValid (d.set i (d[i] ^^^ (1#8 <<< m))) = false

/-- R94 (marked derived in the spec): a change of three consecutive covered bytes that adds 1, subtracts 2 and adds 1 is
never seen by the check. -/
def Obligations.BalancedChangeUndetected : Prop :=
  ∀ (pre post : List Byte) (d₀ d₁ d₂ : Byte), 2 ≤ post.length →
    rangeValid (pre ++ (d₀ + 1) :: (d₁ - 2) :: (d₂ + 1) :: post) = rangeValid (pre ++ d₀ :: d₁ :: d₂ :: post)

/-! ### The frame parser -/

/-- DECF32 (R100): on an admitted address, the four bytes most significant first, every bit unchanged, and nothing else
written; refused when the field leaves its buffer or lies in the write-active one. -/
def Obligations.Decf32AssemblesBigEndian : Prop :=
  (∀ a, decode { cmd := 0x07, a := a } = .ok (.decf32 a) ∧ (Instr.decf32 a).ctx = .consumer) ∧
  (∀ (s : State) (a : BitVec 9), a.toNat % 256 ≤ 252 → a.toNat / 256 = 1 - s.sel.toNat →
    exec (.decf32 a) s = .next { s with out := .pattern (BitVec.ofNat 32 (bigEndian s a)) } ∧
    bigEndian s a < 2 ^ 32) ∧
  (∀ (s : State) (a : BitVec 9), 252 < a.toNat % 256 ∨ a.toNat / 256 = s.sel.toNat →
    ∃ r, exec (.decf32 a) s = .refused r)

/-- PARSE (R101), in every state: it always swaps; each sub-frame, on its own check, writes all of its registers from the
bytes at their offsets or none of them; no byte, flag or other state changes, and there is no result. -/
def Obligations.ParseUpdatesValidSubframes : Prop :=
  decode { cmd := 0x08 } = .ok .parse ∧ Instr.parse.ctx = .consumer ∧
  ∀ s : State, ∃ t, exec .parse s = .next t ∧ t.sel = ~~~ s.sel ∧ t.wrPtr = 0 ∧ t.out = .none ∧
    (∀ (j : Fin 9) (o : Nat),
      (j, o) ∈ ([(0, 6), (1, 10), (2, 14), (3, 20), (4, 24), (5, 28)] : List (Fin 9 × Nat)) →
      t.reading j = if rangeValid (frameBytes s s.sel 0 34) then BitVec.ofNat 32 (bigEndian s (flat s.sel o))
        else s.reading j) ∧
    (∀ (j : Fin 9) (o : Nat), (j, o) ∈ ([(6, 40), (7, 44), (8, 48)] : List (Fin 9 × Nat)) →
      t.reading j = if rangeValid (frameBytes s s.sel 34 22) then BitVec.ofNat 32 (bigEndian s (flat s.sel o))
        else s.reading j) ∧
    (∀ c, t.load c = s.load c) ∧
    t = { s with sel := t.sel, wrPtr := t.wrPtr, x := t.x, out := t.out }

/-- R25 (marked derived in the spec): a PARSE of a buffer whose first 56 bytes are zero passes both checks and writes
zero to every register. -/
def Obligations.ZeroBufferParses : Prop :=
  ∀ s : State, (∀ i < 56, s.load (flat s.sel i) = 0) →
    ∃ t, exec .parse s = .next t ∧ ∀ j : Fin 9, t.reading j = 0

/-- R103 (marked derived in the spec): PARSE as one step gives what its pieces give, whatever the producer and the
environment do in between. After a stand-alone SWAP and any steps that keep the buffers' roles, stand-alone CHECKs and
DECF32s on the buffer handed over answer the validity bits and patterns from which PARSE makes its registers. -/
def Obligations.ParseEqualsItsPieces : Prop :=
  ∀ (s p u t : State) (n : Nat), exec .parse s = .next p → exec .swap s = .next u →
    (∀ m ∈ u.moves.take n, keepsRoles m = true) → Host.Core.run core n u = .next t →
    ∃ v₁ v₂ : Bool,
      exec (.check (flat s.sel 0) 34) t = .next { t with out := .valid v₁ } ∧
      exec (.check (flat s.sel 34) 22) t = .next { t with out := .valid v₂ } ∧
      ∀ j : Fin 9, ∃ d, exec (.decf32 (flat s.sel (Config.fieldOffset j))) t = .next { t with out := .pattern d } ∧
        p.reading j = if (if j.val < 6 then v₁ else v₂) then d else s.reading j

/-- R105: a 56-byte frame delivered while nothing is pending, drained and parsed: each sub-frame with a valid checksum
yields exactly its fields, and one with a corrupted checksum leaves its fields at their prior values. -/
def Obligations.DeliveredFrameIsParsed : Prop :=
  ∀ (s : State) (f : List Byte) (hf : f.length = 56) (rest : List Move), s.Quiescent → s.wrPtr = 0 →
    s.moves = f.map Move.envPush ++ command .rxirq :: command .parse :: rest →
    ∃ t, Host.Core.run core 58 s = .next t ∧ t.moves = rest ∧ t.ovr = s.ovr ∧
      ∀ (j : Fin 9) (o : Nat) (ho : o + 3 < 56),
        (j, o) ∈ ([(0, 6), (1, 10), (2, 14), (3, 20), (4, 24), (5, 28), (6, 40), (7, 44), (8, 48)] :
          List (Fin 9 × Nat)) →
        t.reading j =
          if rangeValid (if j.val < 6 then f.take 34 else f.drop 34) then
            f[o]'(by omega) ++ f[o + 1]'(by omega) ++ f[o + 2]'(by omega) ++ f[o + 3]
          else s.reading j

/-! ### The fixed-point converter -/

/-- TOFIXED (R110), for every pattern and Q factor: refused above 127; for NaN, an infinity, or a product of magnitude
2^128 or more, some 16-bit value with `ovf = 1`; otherwise the exact real product truncated toward zero, wrapped to 16
bits, with `ovf` exactly when it is out of range. Nothing but the answer is written (the model counts the free values it
draws, log entry 5). `val32` is R54's formula, general knowledge in the spec itself (log entry 14). -/
def Obligations.TofixedIsTruncatedProduct : Prop :=
  ∀ (s : State) (p : Pattern) (q : BitVec 8),
    decode { cmd := 0x09, p := p, q := q } = .ok (.tofixed p q) ∧ (Instr.tofixed p q).ctx = .consumer ∧
    if 127 < q.toNat then exec (.tofixed p q) s = .refused .qTooLarge
    else if expField p = 255 ∨ (2 : ℚ) ^ 128 ≤ |val32 p * 2 ^ q.toNat| then
      ∃ r t, exec (.tofixed p q) s = .next t ∧ t = { s with out := .fixed r true, draws := t.draws }
    else
      ∃ r v, exec (.tofixed p q) s = .next { s with out := .fixed r v } ∧
        r = BitVec.ofInt 16 (truncRat (val32 p * 2 ^ q.toNat)) ∧
        (v = true ↔ truncRat (val32 p * 2 ^ q.toNat) < -32768 ∨ 32767 < truncRat (val32 p * 2 ^ q.toNat))

/-- R121 (4), (marked derived in the spec): for a finite input, `ovf = 0` exactly when the input lies in the open interval
the rule gives for Q11 and Q13, and then the result is the truncated product itself. `val32`: log entry 14. -/
def Obligations.OverflowIntervalExact : Prop :=
  ∀ (s : State) (p : Pattern), expField p ≠ 255 →
    (∃ t r v, exec (.tofixed p 11) s = .next t ∧ t.out = .fixed r v ∧
      (v = false ↔ (-32769 / 2048 : ℚ) < val32 p ∧ val32 p < 16) ∧
      (v = false → r.toInt = truncRat (val32 p * 2 ^ 11))) ∧
    (∃ t r v, exec (.tofixed p 13) s = .next t ∧ t.out = .fixed r v ∧
      (v = false ↔ (-32769 / 8192 : ℚ) < val32 p ∧ val32 p < 4) ∧
      (v = false → r.toInt = truncRat (val32 p * 2 ^ 13)))

/-- R121 (5) (marked derived in the spec), where R110 bears it out: both zeros, every value below `2^-q` in magnitude, and
every subnormal up to `q = 126` give `r = 0`, `ovf = 0`. With `q = 127` R110 scales a subnormal to a magnitude below 2, so
the subnormals of magnitude `2^-127` and more give 1 or -1: there the model follows R110 (log entry 13). `val32`: log entry
14. -/
def Obligations.TinyValuesGiveZero : Prop :=
  (∀ (s : State) (p : Pattern) (q : BitVec 8), q.toNat ≤ 127 → expField p ≠ 255 →
    ((expField p = 0 ∧ q.toNat ≤ 126) ∨ |val32 p| * 2 ^ q.toNat < 1) →
    exec (.tofixed p q) s = .next { s with out := .fixed 0 false }) ∧
  (∀ (s : State) (p : Pattern), expField p = 0 →
    let r : BitVec 16 := if fracField p < 2 ^ 22 then 0 else if signBit p then -1 else 1
    exec (.tofixed p 127) s = .next { s with out := .fixed r false })

/-- R122 (marked derived in the spec): rows of the table every model must reproduce, the boundary and wrap rows among
them; the last two have `ovf = 1` with any value. -/
def Obligations.TofixedTableValues : Prop :=
  (∀ row ∈ ([(0x3F800000, 11, 2048, false), (0xBF800000, 13, -8192, false), (0xC0200000, 11, -5120, false),
      (0x411D0000, 11, 20096, false), (0x40490FDB, 13, 25735, false), (0x40490FDB, 11, 6433, false),
      (0x3F7FFFFF, 11, 2047, false), (0x39D1B717, 11, 0, false), (0xB9D1B717, 11, 0, false),
      (0x80000000, 11, 0, false), (0x000116C2, 13, 0, false), (0x3FC00000, 0, 1, false), (0xBFC00000, 0, -1, false),
      (0x417FFE00, 11, 32767, false), (0x41800000, 11, -32768, true), (0xC1800000, 11, -32768, false),
      (0xC1800106, 11, 32767, true), (0x40800000, 13, -32768, true), (0xC0800000, 13, -32768, false),
      (0x42000000, 11, 0, true), (0x42400000, 11, -32768, true), (0x42C80000, 11, 8192, true),
      (0xC2C80000, 11, -8192, true), (0xC1A00000, 11, 24576, true), (0x47800000, 11, 0, true)] :
      List (Pattern × BitVec 8 × Int × Bool)),
    ∃ t, exec (.tofixed row.1 row.2.1) State.reset = .next t ∧ t.out = .fixed (BitVec.ofInt 16 row.2.2.1) row.2.2.2) ∧
  (∀ row ∈ ([(0x7F61B1E6, 11), (0x7F7FFFFF, 13), (0x7F800000, 13), (0xFF800000, 13), (0x7FC00000, 11)] :
      List (Pattern × BitVec 8)),
    ∃ t r, exec (.tofixed row.1 row.2) State.reset = .next t ∧ t.out = .fixed r true)

/-- The nine accessors (R112 to R120): each always answers, converts its own register with its own Q factor as TOFIXED
does, under its own code, and writes nothing else. -/
def Obligations.AccessorsConvertTheirRegister : Prop :=
  IsAccessor .fxaccx 0x10 0 11 ∧ IsAccessor .fxaccy 0x11 1 11 ∧ IsAccessor .fxaccz 0x12 2 11 ∧
  IsAccessor .fxgyrx 0x13 3 11 ∧ IsAccessor .fxgyry 0x14 4 11 ∧ IsAccessor .fxgyrz 0x15 5 11 ∧
  IsAccessor .fxroll 0x16 6 13 ∧ IsAccessor .fxpitch 0x17 7 13 ∧ IsAccessor .fxyaw 0x18 8 13

/-- The nine accessors in terms of the exact real value of their register (R111, R110, R121): `ovf = 0` exactly for a
finite register in the interval of its Q factor, and then the answer is the truncated product itself. `val32`: log entry
14. -/
def Obligations.AccessorValueExact : Prop :=
  ∀ (i : Instr) (j : Fin 9),
    (i, j) ∈ ([(.fxaccx, 0), (.fxaccy, 1), (.fxaccz, 2), (.fxgyrx, 3), (.fxgyry, 4), (.fxgyrz, 5), (.fxroll, 6),
      (.fxpitch, 7), (.fxyaw, 8)] : List (Instr × Fin 9)) →
    let scale : ℚ := if j.val < 6 then 2048 else 8192
    ∀ s : State, ∃ t r v, exec i s = .next t ∧ t.out = .fixed r v ∧
      (v = false ↔ expField (s.reading j) ≠ 255 ∧
        -32769 / scale < val32 (s.reading j) ∧ val32 (s.reading j) < 32768 / scale) ∧
      (v = false → r.toInt = truncRat (val32 (s.reading j) * scale))

/-- R111: immediately after reset every accessor returns `r = 0`, `ovf = 0`. -/
def Obligations.AccessorsZeroAfterReset : Prop :=
  ∀ i ∈ ([.fxaccx, .fxaccy, .fxaccz, .fxgyrx, .fxgyry, .fxgyrz, .fxroll, .fxpitch, .fxyaw] : List Instr),
    ∃ t, exec i State.reset = .next t ∧ t.out = .fixed 0 false

/-! ### Operand domains and PRINT -/

/-- R61: exactly the operands outside the domain are refused, and a CHECK of fewer than two bytes is inside it. PARSE and
the accessors are never refused. -/
def Obligations.OperandDomainExact : Prop :=
  (∀ (s : State) (a len : BitVec 9), (∃ r, exec (.check a len) s = .refused r) ↔
    (512 < a.toNat + len.toNat ∨ 256 < a.toNat % 256 + len.toNat ∨ a.toNat / 256 = s.sel.toNat)) ∧
  (∀ (s : State) (a : BitVec 9), (∃ r, exec (.decf32 a) s = .refused r) ↔
    (252 < a.toNat % 256 ∨ a.toNat / 256 = s.sel.toNat)) ∧
  (∀ (s : State) (p : Pattern) (q : BitVec 8), (∃ r, exec (.tofixed p q) s = .refused r) ↔ 127 < q.toNat) ∧
  (∀ (s : State) (a len : BitVec 9), len.toNat < 2 → a.toNat / 256 ≠ s.sel.toNat →
    ∃ t, exec (.check a len) s = .next t ∧ t.out = .valid false) ∧
  (∀ (s : State) (i : Instr),
    i ∈ ([.parse, .fxaccx, .fxaccy, .fxaccz, .fxgyrx, .fxgyry, .fxgyrz, .fxroll, .fxpitch, .fxyaw] : List Instr) →
    ∃ t, exec i s = .next t)

/-- PRINT (R130): answers a text that is a function of the nine registers alone, and writes no state. -/
def Obligations.PrintReadsOnlyReadings : Prop :=
  decode { cmd := 0x20 } = .ok .print ∧ Instr.print.ctx = .consumer ∧
  (∀ s : State, ∃ line, exec .print s = .next { s with out := .text line }) ∧
  (∀ s t u v : State, (∀ j, s.reading j = t.reading j) → exec .print s = .next u → exec .print t = .next v →
    u.out = v.out)

/-! ### Frames over all operations -/

/-- R31, R151: a consumer operation changes no buffer byte, no flag, no queue and no pending bit. -/
def Obligations.ConsumerOperationsFrame : Prop :=
  ∀ (i : Instr) (s t : State), i.ctx = .consumer → exec i s = .next t →
    (∀ c, t.load c = s.load c) ∧
    t = { s with sel := t.sel, wrPtr := t.wrPtr, x := t.x, out := t.out, draws := t.draws } ∧
    (i ≠ .swap → i ≠ .parse → t.sel = s.sel ∧ t.wrPtr = s.wrPtr) ∧
    ((∃ a len, i = .check a len) ∨ (∃ a, i = .decf32 a) ∨ i = .swap ∨ i = .parse ∨ i = .print → t.draws = s.draws)

/-- R37, R151: a producer operation changes neither the selector nor a register; WRACT and RXB change at most the byte at
`256*sel + wr_ptr`, and RXACK changes no byte (the bytes RXIRQ may change are in RxirqDrainsQueue). That the consumer's
latest answer stays on the outputs is the model's choice (log entry 3), no rule of the spec. -/
def Obligations.ProducerOperationsFrame : Prop :=
  ∀ (i : Instr) (s t : State), i.ctx = .producer → exec i s = .next t →
    t = { s with mem := t.mem, wrPtr := t.wrPtr, ovr := t.ovr, irqPend := t.irqPend, rxq := t.rxq,
                 inService := t.inService } ∧
    ((∃ b, i = .wract b) ∨ i = .rxb →
      (∀ c, c ≠ flat s.sel s.wrPtr.toNat → t.load c = s.load c) ∧ t.irqPend = s.irqPend) ∧
    ((∃ b, i = .wract b) → t.rxq = s.rxq ∧ t.inService = s.inService) ∧
    (i = .rxack → (∀ c, t.load c = s.load c) ∧ t.wrPtr = s.wrPtr ∧ t.ovr = s.ovr ∧ t.rxq = s.rxq)

/-- R16: of all operations only PARSE writes a register. -/
def Obligations.OnlyParseWritesReadings : Prop :=
  ∀ (i : Instr) (s t : State), i ≠ .parse → exec i s = .next t → ∀ j, t.reading j = s.reading j

/-- R13, R31: no operation stores into the read buffer. -/
def Obligations.NoStoreIntoReadBuffer : Prop :=
  ∀ (i : Instr) (s t : State) (c : Addr), exec i s = .next t → bufferOf c = ~~~ s.sel → t.load c = s.load c

/-- R31: no operation loads from the write-active buffer. Two states that differ only in bytes of it give every consumer
operation except PARSE (whose own SWAP first makes it the read buffer) the same effect and the same answer. -/
def Obligations.WriteActiveBytesUnseen : Prop :=
  ∀ (i : Instr) (s t : State) (m : List Host.Cell), i.ctx = .consumer → i ≠ .parse →
    (∀ c, bufferOf c = ~~~ s.sel → ({ s with mem := m } : State).load c = s.load c) →
    exec i s = .next t → exec i { s with mem := m } = .next { t with mem := m }

/-! ### Invariants and whole-machine rules -/

/-- The invariant holds after reset. -/
def Obligations.ResetMeetsInvariant : Prop := State.reset.Inv

/-- Every step keeps the invariant: the memory's canonical form, `wr_ptr` at most 256 (R14), a non-empty queue is never
left with `irq_pend = 0` (R82), and a service in progress has its condition pending. -/
def Obligations.StepKeepsInvariant : Prop := ∀ s t : State, s.Inv → step s = .next t → t.Inv

/-- R42, R43: over any run that neither exchanges the buffers nor resets, the read buffer keeps every byte: no store is
ever observed, fully or partially, by the consumer's loads. -/
def Obligations.ReadBufferStable : Prop :=
  ∀ (n : Nat) (s t : State), (∀ m ∈ s.moves.take n, keepsRoles m = true) → Host.Core.run core n s = .next t →
    t.sel = s.sel ∧ ∀ c, bufferOf c = ~~~ s.sel → t.load c = s.load c

/-- R142: once set, `ovr` stays set through every later step until a RESET. -/
def Obligations.OverrunSticky : Prop :=
  ∀ (n : Nat) (s t : State), (∀ m ∈ s.moves.take n, m ≠ .reset) → Host.Core.run core n s = .next t →
    s.ovr = true → t.ovr = true

/-- R39: every byte stored before a SWAP is seen by every load of it after the SWAP: whatever role-keeping steps follow,
the byte a WRACT stored just before the SWAP is what a load of the buffer handed over returns. -/
def Obligations.StoresVisibleAcrossSwap : Prop :=
  ∀ (n : Nat) (s t u v : State) (b : Byte), s.wrPtr.toNat < 256 → exec (.wract b) s = .next t →
    exec .swap t = .next u → (∀ m ∈ u.moves.take n, keepsRoles m = true) → Host.Core.run core n u = .next v →
    v.load (flat s.sel s.wrPtr.toNat) = b ∧
      ∀ c, bufferOf c = s.sel → c ≠ flat s.sel s.wrPtr.toNat → v.load c = s.load c
end

