-- ==== Sys2Proof/Laws/State.lean ====
section
/-!
SUPPORT. The small lemmas of the state updates: one per field per update, so that no later proof unfolds one.
-/

namespace Sys2Proof.Machine

variable (s : State)

@[simp] theorem State.store_mem (a : Addr) (v : Byte) : (s.store a v).mem = Memory.insert s.mem a.toNat v := rfl
@[simp] theorem State.store_sel (a : Addr) (v : Byte) : (s.store a v).sel = s.sel := rfl
@[simp] theorem State.store_wrPtr (a : Addr) (v : Byte) : (s.store a v).wrPtr = s.wrPtr := rfl
@[simp] theorem State.store_x (a : Addr) (v : Byte) : (s.store a v).x = s.x := rfl
@[simp] theorem State.store_ovr (a : Addr) (v : Byte) : (s.store a v).ovr = s.ovr := rfl
@[simp] theorem State.store_irqPend (a : Addr) (v : Byte) : (s.store a v).irqPend = s.irqPend := rfl
@[simp] theorem State.store_rxq (a : Addr) (v : Byte) : (s.store a v).rxq = s.rxq := rfl
@[simp] theorem State.store_out (a : Addr) (v : Byte) : (s.store a v).out = s.out := rfl
@[simp] theorem State.store_inService (a : Addr) (v : Byte) : (s.store a v).inService = s.inService := rfl
@[simp] theorem State.store_drainAtomic (a : Addr) (v : Byte) : (s.store a v).drainAtomic = s.drainAtomic := rfl
@[simp] theorem State.store_draws (a : Addr) (v : Byte) : (s.store a v).draws = s.draws := rfl
@[simp] theorem State.store_resets (a : Addr) (v : Byte) : (s.store a v).resets = s.resets := rfl
@[simp] theorem State.store_moves (a : Addr) (v : Byte) : (s.store a v).moves = s.moves := rfl
@[simp] theorem State.store_reading (a : Addr) (v : Byte) (j : Fin 9) : (s.store a v).reading j = s.reading j := rfl

@[simp] theorem State.setReading_mem (i : Fin 9) (v : Pattern) : (s.setReading i v).mem = s.mem := rfl
@[simp] theorem State.setReading_sel (i : Fin 9) (v : Pattern) : (s.setReading i v).sel = s.sel := rfl
@[simp] theorem State.setReading_wrPtr (i : Fin 9) (v : Pattern) : (s.setReading i v).wrPtr = s.wrPtr := rfl
@[simp] theorem State.setReading_x (i : Fin 9) (v : Pattern) : (s.setReading i v).x = s.x.set i v := rfl
@[simp] theorem State.setReading_ovr (i : Fin 9) (v : Pattern) : (s.setReading i v).ovr = s.ovr := rfl
@[simp] theorem State.setReading_irqPend (i : Fin 9) (v : Pattern) : (s.setReading i v).irqPend = s.irqPend := rfl
@[simp] theorem State.setReading_rxq (i : Fin 9) (v : Pattern) : (s.setReading i v).rxq = s.rxq := rfl
@[simp] theorem State.setReading_out (i : Fin 9) (v : Pattern) : (s.setReading i v).out = s.out := rfl
@[simp] theorem State.setReading_inService (i : Fin 9) (v : Pattern) : (s.setReading i v).inService = s.inService := rfl
@[simp] theorem State.setReading_drainAtomic (i : Fin 9) (v : Pattern) : (s.setReading i v).drainAtomic = s.drainAtomic := rfl
@[simp] theorem State.setReading_draws (i : Fin 9) (v : Pattern) : (s.setReading i v).draws = s.draws := rfl
@[simp] theorem State.setReading_resets (i : Fin 9) (v : Pattern) : (s.setReading i v).resets = s.resets := rfl
@[simp] theorem State.setReading_moves (i : Fin 9) (v : Pattern) : (s.setReading i v).moves = s.moves := rfl
@[simp] theorem State.setReading_load (i : Fin 9) (v : Pattern) (c : Addr) : (s.setReading i v).load c = s.load c := rfl

@[simp] theorem State.answer_mem (o : Output) : (s.answer o).mem = s.mem := rfl
@[simp] theorem State.answer_sel (o : Output) : (s.answer o).sel = s.sel := rfl
@[simp] theorem State.answer_wrPtr (o : Output) : (s.answer o).wrPtr = s.wrPtr := rfl
@[simp] theorem State.answer_x (o : Output) : (s.answer o).x = s.x := rfl
@[simp] theorem State.answer_ovr (o : Output) : (s.answer o).ovr = s.ovr := rfl
@[simp] theorem State.answer_irqPend (o : Output) : (s.answer o).irqPend = s.irqPend := rfl
@[simp] theorem State.answer_rxq (o : Output) : (s.answer o).rxq = s.rxq := rfl
@[simp] theorem State.answer_out (o : Output) : (s.answer o).out = o := rfl
@[simp] theorem State.answer_inService (o : Output) : (s.answer o).inService = s.inService := rfl
@[simp] theorem State.answer_drainAtomic (o : Output) : (s.answer o).drainAtomic = s.drainAtomic := rfl
@[simp] theorem State.answer_draws (o : Output) : (s.answer o).draws = s.draws := rfl
@[simp] theorem State.answer_resets (o : Output) : (s.answer o).resets = s.resets := rfl
@[simp] theorem State.answer_moves (o : Output) : (s.answer o).moves = s.moves := rfl
@[simp] theorem State.answer_load (o : Output) (c : Addr) : (s.answer o).load c = s.load c := rfl
@[simp] theorem State.answer_reading (o : Output) (j : Fin 9) : (s.answer o).reading j = s.reading j := rfl

@[simp] theorem State.handOver_mem : (s.handOver).mem = s.mem := rfl
@[simp] theorem State.handOver_sel : (s.handOver).sel = ~~~ s.sel := rfl
@[simp] theorem State.handOver_wrPtr : (s.handOver).wrPtr = 0 := rfl
@[simp] theorem State.handOver_x : (s.handOver).x = s.x := rfl
@[simp] theorem State.handOver_ovr : (s.handOver).ovr = s.ovr := rfl
@[simp] theorem State.handOver_irqPend : (s.handOver).irqPend = s.irqPend := rfl
@[simp] theorem State.handOver_rxq : (s.handOver).rxq = s.rxq := rfl
@[simp] theorem State.handOver_out : (s.handOver).out = s.out := rfl
@[simp] theorem State.handOver_inService : (s.handOver).inService = s.inService := rfl
@[simp] theorem State.handOver_drainAtomic : (s.handOver).drainAtomic = s.drainAtomic := rfl
@[simp] theorem State.handOver_draws : (s.handOver).draws = s.draws := rfl
@[simp] theorem State.handOver_resets : (s.handOver).resets = s.resets := rfl
@[simp] theorem State.handOver_moves : (s.handOver).moves = s.moves := rfl
@[simp] theorem State.handOver_load (c : Addr) : (s.handOver).load c = s.load c := rfl
@[simp] theorem State.handOver_reading (j : Fin 9) : (s.handOver).reading j = s.reading j := rfl

@[simp] theorem State.enterService_mem : (s.enterService).mem = s.mem := rfl
@[simp] theorem State.enterService_sel : (s.enterService).sel = s.sel := rfl
@[simp] theorem State.enterService_wrPtr : (s.enterService).wrPtr = s.wrPtr := rfl
@[simp] theorem State.enterService_x : (s.enterService).x = s.x := rfl
@[simp] theorem State.enterService_ovr : (s.enterService).ovr = s.ovr := rfl
@[simp] theorem State.enterService_irqPend : (s.enterService).irqPend = s.irqPend := rfl
@[simp] theorem State.enterService_rxq : (s.enterService).rxq = s.rxq := rfl
@[simp] theorem State.enterService_out : (s.enterService).out = s.out := rfl
@[simp] theorem State.enterService_inService : (s.enterService).inService = true := rfl
@[simp] theorem State.enterService_drainAtomic : (s.enterService).drainAtomic = s.drainAtomic := rfl
@[simp] theorem State.enterService_draws : (s.enterService).draws = s.draws := rfl
@[simp] theorem State.enterService_resets : (s.enterService).resets = s.resets := rfl
@[simp] theorem State.enterService_moves : (s.enterService).moves = s.moves := rfl
@[simp] theorem State.enterService_load (c : Addr) : (s.enterService).load c = s.load c := rfl
@[simp] theorem State.enterService_reading (j : Fin 9) : (s.enterService).reading j = s.reading j := rfl

@[simp] theorem State.leaveService_mem : (s.leaveService).mem = s.mem := rfl
@[simp] theorem State.leaveService_sel : (s.leaveService).sel = s.sel := rfl
@[simp] theorem State.leaveService_wrPtr : (s.leaveService).wrPtr = s.wrPtr := rfl
@[simp] theorem State.leaveService_x : (s.leaveService).x = s.x := rfl
@[simp] theorem State.leaveService_ovr : (s.leaveService).ovr = s.ovr := rfl
@[simp] theorem State.leaveService_irqPend : (s.leaveService).irqPend = false := rfl
@[simp] theorem State.leaveService_rxq : (s.leaveService).rxq = s.rxq := rfl
@[simp] theorem State.leaveService_out : (s.leaveService).out = s.out := rfl
@[simp] theorem State.leaveService_inService : (s.leaveService).inService = false := rfl
@[simp] theorem State.leaveService_drainAtomic : (s.leaveService).drainAtomic = s.drainAtomic := rfl
@[simp] theorem State.leaveService_draws : (s.leaveService).draws = s.draws := rfl
@[simp] theorem State.leaveService_resets : (s.leaveService).resets = s.resets := rfl
@[simp] theorem State.leaveService_moves : (s.leaveService).moves = s.moves := rfl
@[simp] theorem State.leaveService_load (c : Addr) : (s.leaveService).load c = s.load c := rfl
@[simp] theorem State.leaveService_reading (j : Fin 9) : (s.leaveService).reading j = s.reading j := rfl

@[simp] theorem State.push_mem (b : Byte) : (s.push b).mem = s.mem := rfl
@[simp] theorem State.push_sel (b : Byte) : (s.push b).sel = s.sel := rfl
@[simp] theorem State.push_wrPtr (b : Byte) : (s.push b).wrPtr = s.wrPtr := rfl
@[simp] theorem State.push_x (b : Byte) : (s.push b).x = s.x := rfl
@[simp] theorem State.push_ovr (b : Byte) : (s.push b).ovr = s.ovr := rfl
@[simp] theorem State.push_irqPend (b : Byte) : (s.push b).irqPend = true := rfl
@[simp] theorem State.push_rxq (b : Byte) : (s.push b).rxq = s.rxq ++ [b] := rfl
@[simp] theorem State.push_out (b : Byte) : (s.push b).out = s.out := rfl
@[simp] theorem State.push_inService (b : Byte) : (s.push b).inService = s.inService := rfl
@[simp] theorem State.push_drainAtomic (b : Byte) : (s.push b).drainAtomic = s.drainAtomic := rfl
@[simp] theorem State.push_draws (b : Byte) : (s.push b).draws = s.draws := rfl
@[simp] theorem State.push_resets (b : Byte) : (s.push b).resets = s.resets := rfl
@[simp] theorem State.push_moves (b : Byte) : (s.push b).moves = s.moves := rfl
@[simp] theorem State.push_load (b : Byte) (c : Addr) : (s.push b).load c = s.load c := rfl
@[simp] theorem State.push_reading (b : Byte) (j : Fin 9) : (s.push b).reading j = s.reading j := rfl

@[simp] theorem State.resetEvent_mem : (s.resetEvent).mem = [] := rfl
@[simp] theorem State.resetEvent_sel : (s.resetEvent).sel = 0 := rfl
@[simp] theorem State.resetEvent_wrPtr : (s.resetEvent).wrPtr = 0 := rfl
@[simp] theorem State.resetEvent_x : (s.resetEvent).x = Vector.replicate 9 0 := rfl
@[simp] theorem State.resetEvent_ovr : (s.resetEvent).ovr = false := rfl
@[simp] theorem State.resetEvent_irqPend : (s.resetEvent).irqPend = false := rfl
@[simp] theorem State.resetEvent_rxq : (s.resetEvent).rxq = [] := rfl
@[simp] theorem State.resetEvent_out : (s.resetEvent).out = .none := rfl
@[simp] theorem State.resetEvent_inService : (s.resetEvent).inService = false := rfl
@[simp] theorem State.resetEvent_drainAtomic : (s.resetEvent).drainAtomic = s.drainAtomic := rfl
@[simp] theorem State.resetEvent_draws : (s.resetEvent).draws = s.draws := rfl
@[simp] theorem State.resetEvent_resets : (s.resetEvent).resets = s.resets + 1 := rfl
@[simp] theorem State.resetEvent_moves : (s.resetEvent).moves = s.moves := rfl

/-- After RESET nothing is stored: every byte is the new BUF_INIT. -/
@[simp] theorem State.resetEvent_load (c : Addr) : s.resetEvent.load c = Config.bufInit (s.resets + 1) c.toNat := rfl

/-- After RESET every register holds positive zero. -/
@[simp] theorem State.resetEvent_reading (j : Fin 9) : s.resetEvent.reading j = 0 := by
  simp [State.reading]

@[simp] theorem State.setReading_reading (i : Fin 9) (v : Pattern) (j : Fin 9) :
    (s.setReading i v).reading j = if j = i then v else s.reading j := by
  by_cases h : j = i
  · subst h; simp [State.reading]
  · have hv : i.val ≠ j.val := fun e => h (Fin.ext e.symm)
    simp [State.reading, h, Vector.getElem_set_ne, hv]

end Sys2Proof.Machine
end

