-- ==== Sys2Proof/Laws/Memory.lean ====
section
/-!
SUPPORT. The laws of the byte memory: a store is read back, it reaches no other byte, and every memory operation keeps
the canonical form.
-/

namespace Sys2Proof.Machine

theorem Memory.find_insert (m : List Host.Cell) (a b : Nat) (v : Byte) :
    Memory.find (Memory.insert m a v) b = if b = a then some v else Memory.find m b := by
  induction m with
  | nil => simp only [Memory.insert, Memory.find, eq_comm]
  | cons c m ih =>
    simp only [Memory.insert]
    by_cases h1 : a < c.1
    · by_cases hb : b = a
      · simp [Memory.find, h1, hb]
      · have hb' : ¬ a = b := fun e => hb e.symm
        simp [Memory.find, h1, hb, hb']
    · by_cases h2 : a = c.1
      · by_cases hb : b = a
        · simp [Memory.find, h2, hb]
        · have hb' : ¬ c.1 = b := fun e => hb (e.symm.trans h2.symm)
          simpa [Memory.find, h2, hb'] using fun e : b = c.1 => absurd e.symm hb'
      · by_cases hb : b = a
        · have hb' : ¬ c.1 = b := fun e => h2 (hb.symm.trans e.symm)
          simp only [h1, h2, if_false, Memory.find, hb', ih]
        · simp only [h1, h2, if_false, Memory.find, ih, hb]

/-- An address stored by `insert` is the new one or an old one. -/
theorem Memory.mem_insert {m : List Host.Cell} {a : Nat} {v : Byte} {c : Host.Cell}
    (h : c ∈ Memory.insert m a v) : c = (a, v) ∨ c ∈ m := by
  induction m with
  | nil => simpa [Memory.insert] using h
  | cons d m ih =>
    simp only [Memory.insert] at h
    split_ifs at h <;> simp only [List.mem_cons] at h ⊢ <;> tauto

/-- Storing a byte of an existing address keeps the canonical form. -/
theorem Memory.insert_wf {m : List Host.Cell} {a : Nat} (v : Byte) (h : Memory.wf m) (ha : a < 512) :
    Memory.wf (Memory.insert m a v) := by
  refine ⟨?_, fun c hc => ?_⟩
  · obtain ⟨hp, -⟩ := h
    induction m with
    | nil => simp [Memory.insert]
    | cons d m ih =>
      obtain ⟨hd, hm⟩ := List.pairwise_cons.1 hp
      simp only [Memory.insert]
      split_ifs with h1 h2
      · refine List.pairwise_cons.2 ⟨fun c hc => ?_, hp⟩
        rcases List.mem_cons.1 hc with rfl | hc
        · exact h1
        · exact h1.trans (hd c hc)
      · exact List.pairwise_cons.2 ⟨fun c hc => by simpa [h2] using hd c hc, hm⟩
      · refine List.pairwise_cons.2 ⟨fun c hc => ?_, ih hm⟩
        rcases Memory.mem_insert hc with rfl | hc
        · exact by simp only; omega
        · exact hd c hc
  · rcases Memory.mem_insert hc with rfl | hc
    · exact ha
    · exact h.2 c hc

/-- What a byte reads as after a store. -/
@[simp] theorem State.store_load (s : State) (a c : Addr) (v : Byte) :
    (s.store a v).load c = if c = a then v else s.load c := by
  have : (c.toNat = a.toNat) = (c = a) := by rw [BitVec.toNat_inj]
  simp only [State.load, State.store_mem, State.store_resets, Memory.find_insert, this]
  split_ifs <;> rfl

theorem State.store_wf {s : State} (a : Addr) (v : Byte) (h : Memory.wf s.mem) : Memory.wf (s.store a v).mem :=
  Memory.insert_wf v h (by simpa using a.isLt)

/-- Two addresses of one flat memory differ when their buffers or their offsets do. -/
theorem flat_inj {k l : BitVec 1} {i j : Nat} (hi : i < 256) (hj : j < 256) :
    flat k i = flat l j ↔ k = l ∧ i = j := by
  have hk := k.isLt
  have hl := l.isLt
  rw [← BitVec.toNat_inj, ← BitVec.toNat_inj (x := k)]
  simp only [flat, Config.bufSize, BitVec.toNat_ofNat]
  omega

/-- Every address is the flat address of its buffer index and its offset. -/
theorem flat_bufferOf_offsetOf (a : Addr) : flat (bufferOf a) (offsetOf a) = a := by
  have ha := a.isLt
  rw [← BitVec.toNat_inj]
  simp only [flat, Config.bufSize, bufferOf, offsetOf, BitVec.toNat_ofNat, BitVec.extractLsb'_toNat,
    Nat.shiftRight_eq_div_pow]
  omega

theorem bufferOf_flat {k : BitVec 1} {i : Nat} (hi : i < 256) : bufferOf (flat k i) = k := by
  have hk := k.isLt
  rw [← BitVec.toNat_inj]
  simp only [flat, Config.bufSize, bufferOf, BitVec.toNat_ofNat, BitVec.extractLsb'_toNat, Nat.shiftRight_eq_div_pow]
  omega

theorem offsetOf_flat {k : BitVec 1} {i : Nat} (hi : i < 256) : offsetOf (flat k i) = i := by
  have hk := k.isLt
  simp only [flat, Config.bufSize, offsetOf, BitVec.toNat_ofNat, BitVec.extractLsb'_toNat, Nat.shiftRight_eq_div_pow]
  omega

/-- A flat address and a byte offset inside the same buffer add up. -/
theorem flat_add (k : BitVec 1) (i j : Nat) : flat k i + BitVec.ofNat 9 j = flat k (i + j) := by
  rw [← BitVec.toNat_inj]
  simp only [flat, BitVec.toNat_add, BitVec.toNat_ofNat]
  omega

end Sys2Proof.Machine
end

