-- ==== Sys2Proof/Laws/Operands.lean ====
section
/-!
SUPPORT. The operand domains (30_encoding.md R61) as arithmetic, so that no later proof unfolds a bit slice.
-/

namespace Sys2Proof.Machine

theorem rangeInBuffer_iff {a : Addr} {n : Nat} : rangeInBuffer a n = true ↔ a.toNat % 256 + n ≤ 256 := by
  unfold rangeInBuffer offsetOf Config.bufSize
  rw [decide_eq_true_iff]
  simp [BitVec.extractLsb'_toNat]

theorem qAdmitted_iff {q : BitVec 8} : qAdmitted q = true ↔ q.toNat ≤ 127 := by
  unfold qAdmitted Config.qMax
  rw [decide_eq_true_iff]

theorem State.inReadBuffer_iff {s : State} {a : Addr} : s.inReadBuffer a = true ↔ a.toNat / 256 = 1 - s.sel.toNat := by
  have := a.isLt
  have := s.sel.isLt
  simp only [State.inReadBuffer, beq_iff_eq, ← BitVec.toNat_inj, bufferOf, BitVec.extractLsb'_toNat,
    Nat.shiftRight_eq_div_pow, BitVec.toNat_not]
  omega

/-- The bytes of an admitted range lie in the buffer of its first byte. -/
theorem bufferOf_add {a : Addr} {j : Nat} (h : offsetOf a + j < 256) : bufferOf (a + BitVec.ofNat 9 j) = bufferOf a := by
  conv_lhs => rw [← flat_bufferOf_offsetOf a, flat_add, bufferOf_flat h]

end Sys2Proof.Machine
end

