-- ==== Sys2Proof/Laws/Ops.lean ====
section
/-!
SUPPORT. One specification per shared operation: what it changes, and each field it leaves alone.
-/

namespace Sys2Proof.Machine

/-! ### `State.append`, the body of WRACT -/

/-- With room left, the byte is stored at the write address and counted. -/
theorem State.append_of_room {s : State} (b : Byte) (h : s.wrPtr.toNat < 256) :
    s.append b = { s.store s.writeAddr b with wrPtr := s.wrPtr + 1 } := by
  simp [State.append, Config.bufSize, h]

/-- With the buffer full, only the overrun flag is set. -/
theorem State.append_of_full {s : State} (b : Byte) (h : ¬ s.wrPtr.toNat < 256) :
    s.append b = { s with ovr := true } := by
  simp [State.append, Config.bufSize, h]

@[simp] theorem State.append_sel (s : State) (b : Byte) : (s.append b).sel = s.sel := by
  unfold State.append; split <;> rfl
@[simp] theorem State.append_x (s : State) (b : Byte) : (s.append b).x = s.x := by
  unfold State.append; split <;> rfl
@[simp] theorem State.append_irqPend (s : State) (b : Byte) : (s.append b).irqPend = s.irqPend := by
  unfold State.append; split <;> rfl
@[simp] theorem State.append_rxq (s : State) (b : Byte) : (s.append b).rxq = s.rxq := by
  unfold State.append; split <;> rfl
@[simp] theorem State.append_out (s : State) (b : Byte) : (s.append b).out = s.out := by
  unfold State.append; split <;> rfl
@[simp] theorem State.append_inService (s : State) (b : Byte) : (s.append b).inService = s.inService := by
  unfold State.append; split <;> rfl
@[simp] theorem State.append_drainAtomic (s : State) (b : Byte) : (s.append b).drainAtomic = s.drainAtomic := by
  unfold State.append; split <;> rfl
@[simp] theorem State.append_draws (s : State) (b : Byte) : (s.append b).draws = s.draws := by
  unfold State.append; split <;> rfl
@[simp] theorem State.append_resets (s : State) (b : Byte) : (s.append b).resets = s.resets := by
  unfold State.append; split <;> rfl
@[simp] theorem State.append_moves (s : State) (b : Byte) : (s.append b).moves = s.moves := by
  unfold State.append; split <;> rfl
@[simp] theorem State.append_reading (s : State) (b : Byte) (j : Fin 9) : (s.append b).reading j = s.reading j := by
  simp [State.reading]

/-- The write index counts the stored byte and stops at 256. -/
theorem State.append_wrPtr_toNat (s : State) (b : Byte) :
    (s.append b).wrPtr.toNat = if s.wrPtr.toNat < 256 then s.wrPtr.toNat + 1 else s.wrPtr.toNat := by
  split_ifs with h
  · rw [State.append_of_room b h]
    simp only [BitVec.toNat_add]
    simp; omega
  · rw [State.append_of_full b h]

/-- The flag is set exactly when the buffer is full. -/
theorem State.append_ovr (s : State) (b : Byte) :
    (s.append b).ovr = if s.wrPtr.toNat < 256 then s.ovr else true := by
  split_ifs with h
  · rw [State.append_of_room b h]; rfl
  · rw [State.append_of_full b h]

/-- What a byte reads as after an append. -/
theorem State.append_load (s : State) (b : Byte) (c : Addr) :
    (s.append b).load c = if s.wrPtr.toNat < 256 ∧ c = s.writeAddr then b else s.load c := by
  by_cases h : s.wrPtr.toNat < 256
  · rw [State.append_of_room b h]
    change (s.store s.writeAddr b).load c = _
    simp [h]
  · rw [State.append_of_full b h]
    simp [h]; rfl

theorem State.append_wf {s : State} (b : Byte) (h : Memory.wf s.mem) : Memory.wf (s.append b).mem := by
  by_cases hr : s.wrPtr.toNat < 256
  · rw [State.append_of_room b hr]; exact State.store_wf _ _ h
  · rw [State.append_of_full b hr]; exact h

/-! ### `State.receive`, the RXB step -/

@[simp] theorem State.receive_sel (s : State) (b : Byte) (r : List Byte) : (s.receive b r).sel = s.sel := by
  simp [State.receive]
@[simp] theorem State.receive_x (s : State) (b : Byte) (r : List Byte) : (s.receive b r).x = s.x := by
  simp [State.receive]
@[simp] theorem State.receive_irqPend (s : State) (b : Byte) (r : List Byte) : (s.receive b r).irqPend = s.irqPend := by
  simp [State.receive]
@[simp] theorem State.receive_out (s : State) (b : Byte) (r : List Byte) : (s.receive b r).out = s.out := by
  simp [State.receive]
@[simp] theorem State.receive_drainAtomic (s : State) (b : Byte) (r : List Byte) : (s.receive b r).drainAtomic = s.drainAtomic := by
  simp [State.receive]
@[simp] theorem State.receive_draws (s : State) (b : Byte) (r : List Byte) : (s.receive b r).draws = s.draws := by
  simp [State.receive]
@[simp] theorem State.receive_resets (s : State) (b : Byte) (r : List Byte) : (s.receive b r).resets = s.resets := by
  simp [State.receive]
@[simp] theorem State.receive_moves (s : State) (b : Byte) (r : List Byte) : (s.receive b r).moves = s.moves := by
  simp [State.receive]
@[simp] theorem State.receive_reading (s : State) (b : Byte) (r : List Byte) (j : Fin 9) :
    (s.receive b r).reading j = s.reading j := by
  simp [State.reading]
@[simp] theorem State.receive_rxq (s : State) (b : Byte) (r : List Byte) : (s.receive b r).rxq = r := by
  simp [State.receive]
@[simp] theorem State.receive_inService (s : State) (b : Byte) (r : List Byte) : (s.receive b r).inService = true := by
  simp [State.receive]

/-- The byte goes where WRACT puts it: the queue plays no part. -/
theorem State.receive_mem (s : State) (b : Byte) (r : List Byte) : (s.receive b r).mem = (s.append b).mem := by
  simp only [State.receive, State.enterService_mem, State.append]; split <;> rfl
theorem State.receive_wrPtr (s : State) (b : Byte) (r : List Byte) : (s.receive b r).wrPtr = (s.append b).wrPtr := by
  simp only [State.receive, State.enterService_wrPtr, State.append]; split <;> rfl
theorem State.receive_ovr (s : State) (b : Byte) (r : List Byte) : (s.receive b r).ovr = (s.append b).ovr := by
  simp only [State.receive, State.enterService_ovr, State.append]; split <;> rfl
theorem State.receive_load (s : State) (b : Byte) (r : List Byte) (c : Addr) :
    (s.receive b r).load c = (s.append b).load c := by
  simp only [State.load, State.receive_mem, State.receive_resets, State.append_resets]

/-! ### `State.drain`, the loop of RXIRQ -/

@[simp] theorem State.drain_sel (bs : List Byte) (s : State) : (State.drain bs s).sel = s.sel := by
  induction bs generalizing s with
  | nil => rfl
  | cons b bs ih => simp [State.drain, ih]
@[simp] theorem State.drain_x (bs : List Byte) (s : State) : (State.drain bs s).x = s.x := by
  induction bs generalizing s with
  | nil => rfl
  | cons b bs ih => simp [State.drain, ih]
@[simp] theorem State.drain_irqPend (bs : List Byte) (s : State) : (State.drain bs s).irqPend = s.irqPend := by
  induction bs generalizing s with
  | nil => rfl
  | cons b bs ih => simp [State.drain, ih]
@[simp] theorem State.drain_out (bs : List Byte) (s : State) : (State.drain bs s).out = s.out := by
  induction bs generalizing s with
  | nil => rfl
  | cons b bs ih => simp [State.drain, ih]
@[simp] theorem State.drain_drainAtomic (bs : List Byte) (s : State) : (State.drain bs s).drainAtomic = s.drainAtomic := by
  induction bs generalizing s with
  | nil => rfl
  | cons b bs ih => simp [State.drain, ih]
@[simp] theorem State.drain_draws (bs : List Byte) (s : State) : (State.drain bs s).draws = s.draws := by
  induction bs generalizing s with
  | nil => rfl
  | cons b bs ih => simp [State.drain, ih]
@[simp] theorem State.drain_resets (bs : List Byte) (s : State) : (State.drain bs s).resets = s.resets := by
  induction bs generalizing s with
  | nil => rfl
  | cons b bs ih => simp [State.drain, ih]
@[simp] theorem State.drain_moves (bs : List Byte) (s : State) : (State.drain bs s).moves = s.moves := by
  induction bs generalizing s with
  | nil => rfl
  | cons b bs ih => simp [State.drain, ih]
@[simp] theorem State.drain_reading (bs : List Byte) (s : State) (j : Fin 9) :
    (State.drain bs s).reading j = s.reading j := by
  simp [State.reading]

/-- The drain empties the queue it was given. -/
theorem State.drain_rxq (s : State) : (State.drain s.rxq s).rxq = [] := by
  have h : ∀ (bs : List Byte) (t : State), t.rxq = bs → (State.drain bs t).rxq = [] := by
    intro bs
    induction bs with
    | nil => exact fun t ht => ht
    | cons b bs ih => exact fun t _ => ih _ (by simp)
  exact h _ s rfl

theorem State.drain_wf (bs : List Byte) {s : State} (h : Memory.wf s.mem) : Memory.wf (State.drain bs s).mem := by
  induction bs generalizing s with
  | nil => exact h
  | cons b bs ih => exact ih (by rw [State.receive_mem]; exact State.append_wf b h)

/-! ### `State.latch` and `State.parseSubframe`, the body of PARSE -/

@[simp] theorem State.latch_mem (k : BitVec 1) (fs : List (Fin 9)) (s : State) : (State.latch k fs s).mem = s.mem := by
  induction fs generalizing s with
  | nil => rfl
  | cons i fs ih => simp [State.latch, ih]
@[simp] theorem State.latch_sel (k : BitVec 1) (fs : List (Fin 9)) (s : State) : (State.latch k fs s).sel = s.sel := by
  induction fs generalizing s with
  | nil => rfl
  | cons i fs ih => simp [State.latch, ih]
@[simp] theorem State.latch_wrPtr (k : BitVec 1) (fs : List (Fin 9)) (s : State) : (State.latch k fs s).wrPtr = s.wrPtr := by
  induction fs generalizing s with
  | nil => rfl
  | cons i fs ih => simp [State.latch, ih]
@[simp] theorem State.latch_ovr (k : BitVec 1) (fs : List (Fin 9)) (s : State) : (State.latch k fs s).ovr = s.ovr := by
  induction fs generalizing s with
  | nil => rfl
  | cons i fs ih => simp [State.latch, ih]
@[simp] theorem State.latch_irqPend (k : BitVec 1) (fs : List (Fin 9)) (s : State) : (State.latch k fs s).irqPend = s.irqPend := by
  induction fs generalizing s with
  | nil => rfl
  | cons i fs ih => simp [State.latch, ih]
@[simp] theorem State.latch_rxq (k : BitVec 1) (fs : List (Fin 9)) (s : State) : (State.latch k fs s).rxq = s.rxq := by
  induction fs generalizing s with
  | nil => rfl
  | cons i fs ih => simp [State.latch, ih]
@[simp] theorem State.latch_out (k : BitVec 1) (fs : List (Fin 9)) (s : State) : (State.latch k fs s).out = s.out := by
  induction fs generalizing s with
  | nil => rfl
  | cons i fs ih => simp [State.latch, ih]
@[simp] theorem State.latch_inService (k : BitVec 1) (fs : List (Fin 9)) (s : State) : (State.latch k fs s).inService = s.inService := by
  induction fs generalizing s with
  | nil => rfl
  | cons i fs ih => simp [State.latch, ih]
@[simp] theorem State.latch_drainAtomic (k : BitVec 1) (fs : List (Fin 9)) (s : State) : (State.latch k fs s).drainAtomic = s.drainAtomic := by
  induction fs generalizing s with
  | nil => rfl
  | cons i fs ih => simp [State.latch, ih]
@[simp] theorem State.latch_draws (k : BitVec 1) (fs : List (Fin 9)) (s : State) : (State.latch k fs s).draws = s.draws := by
  induction fs generalizing s with
  | nil => rfl
  | cons i fs ih => simp [State.latch, ih]
@[simp] theorem State.latch_resets (k : BitVec 1) (fs : List (Fin 9)) (s : State) : (State.latch k fs s).resets = s.resets := by
  induction fs generalizing s with
  | nil => rfl
  | cons i fs ih => simp [State.latch, ih]
@[simp] theorem State.latch_moves (k : BitVec 1) (fs : List (Fin 9)) (s : State) : (State.latch k fs s).moves = s.moves := by
  induction fs generalizing s with
  | nil => rfl
  | cons i fs ih => simp [State.latch, ih]
@[simp] theorem State.latch_load (k : BitVec 1) (fs : List (Fin 9)) (s : State) (c : Addr) :
    (State.latch k fs s).load c = s.load c := by
  simp [State.load]

/-- Latching writes the listed registers from the frame and keeps the others. -/
theorem State.latch_reading (k : BitVec 1) (fs : List (Fin 9)) (s : State) (j : Fin 9) :
    (State.latch k fs s).reading j
      = if j ∈ fs then s.load32 (flat k (Config.fieldOffset j)) else s.reading j := by
  induction fs generalizing s with
  | nil => simp [State.latch]
  | cons i fs ih =>
    rw [State.latch, ih]
    by_cases h1 : j ∈ fs
    · simp [h1, State.load32]
    · by_cases h2 : j = i <;> simp [h1, h2, State.load32]

@[simp] theorem State.parseSubframe_mem (k : BitVec 1) (a n : Nat) (fs : List (Fin 9)) (s : State) :
    (s.parseSubframe k a n fs).mem = s.mem := by
  unfold State.parseSubframe; split <;> simp
@[simp] theorem State.parseSubframe_sel (k : BitVec 1) (a n : Nat) (fs : List (Fin 9)) (s : State) :
    (s.parseSubframe k a n fs).sel = s.sel := by
  unfold State.parseSubframe; split <;> simp
@[simp] theorem State.parseSubframe_wrPtr (k : BitVec 1) (a n : Nat) (fs : List (Fin 9)) (s : State) :
    (s.parseSubframe k a n fs).wrPtr = s.wrPtr := by
  unfold State.parseSubframe; split <;> simp
@[simp] theorem State.parseSubframe_ovr (k : BitVec 1) (a n : Nat) (fs : List (Fin 9)) (s : State) :
    (s.parseSubframe k a n fs).ovr = s.ovr := by
  unfold State.parseSubframe; split <;> simp
@[simp] theorem State.parseSubframe_irqPend (k : BitVec 1) (a n : Nat) (fs : List (Fin 9)) (s : State) :
    (s.parseSubframe k a n fs).irqPend = s.irqPend := by
  unfold State.parseSubframe; split <;> simp
@[simp] theorem State.parseSubframe_rxq (k : BitVec 1) (a n : Nat) (fs : List (Fin 9)) (s : State) :
    (s.parseSubframe k a n fs).rxq = s.rxq := by
  unfold State.parseSubframe; split <;> simp
@[simp] theorem State.parseSubframe_out (k : BitVec 1) (a n : Nat) (fs : List (Fin 9)) (s : State) :
    (s.parseSubframe k a n fs).out = s.out := by
  unfold State.parseSubframe; split <;> simp
@[simp] theorem State.parseSubframe_inService (k : BitVec 1) (a n : Nat) (fs : List (Fin 9)) (s : State) :
    (s.parseSubframe k a n fs).inService = s.inService := by
  unfold State.parseSubframe; split <;> simp
@[simp] theorem State.parseSubframe_drainAtomic (k : BitVec 1) (a n : Nat) (fs : List (Fin 9)) (s : State) :
    (s.parseSubframe k a n fs).drainAtomic = s.drainAtomic := by
  unfold State.parseSubframe; split <;> simp
@[simp] theorem State.parseSubframe_draws (k : BitVec 1) (a n : Nat) (fs : List (Fin 9)) (s : State) :
    (s.parseSubframe k a n fs).draws = s.draws := by
  unfold State.parseSubframe; split <;> simp
@[simp] theorem State.parseSubframe_resets (k : BitVec 1) (a n : Nat) (fs : List (Fin 9)) (s : State) :
    (s.parseSubframe k a n fs).resets = s.resets := by
  unfold State.parseSubframe; split <;> simp
@[simp] theorem State.parseSubframe_moves (k : BitVec 1) (a n : Nat) (fs : List (Fin 9)) (s : State) :
    (s.parseSubframe k a n fs).moves = s.moves := by
  unfold State.parseSubframe; split <;> simp
@[simp] theorem State.parseSubframe_load (k : BitVec 1) (a n : Nat) (fs : List (Fin 9)) (s : State) (c : Addr) :
    (s.parseSubframe k a n fs).load c = s.load c := by
  simp [State.load]

/-- A sub-frame writes its registers when its check passes, and otherwise keeps them. -/
theorem State.parseSubframe_reading (k : BitVec 1) (a n : Nat) (fs : List (Fin 9)) (s : State) (j : Fin 9) :
    (s.parseSubframe k a n fs).reading j
      = if s.checkRange (flat k a) n = true ∧ j ∈ fs then s.load32 (flat k (Config.fieldOffset j))
        else s.reading j := by
  unfold State.parseSubframe
  by_cases h : s.checkRange (flat k a) n = true <;> simp [h, State.latch_reading]

/-! ### `State.convert` and `State.access` -/

@[simp] theorem State.convert_mem (s : State) (p : Pattern) (q : Nat) : (s.convert p q).mem = s.mem := by
  unfold State.convert; split <;> rfl
@[simp] theorem State.convert_sel (s : State) (p : Pattern) (q : Nat) : (s.convert p q).sel = s.sel := by
  unfold State.convert; split <;> rfl
@[simp] theorem State.convert_wrPtr (s : State) (p : Pattern) (q : Nat) : (s.convert p q).wrPtr = s.wrPtr := by
  unfold State.convert; split <;> rfl
@[simp] theorem State.convert_x (s : State) (p : Pattern) (q : Nat) : (s.convert p q).x = s.x := by
  unfold State.convert; split <;> rfl
@[simp] theorem State.convert_ovr (s : State) (p : Pattern) (q : Nat) : (s.convert p q).ovr = s.ovr := by
  unfold State.convert; split <;> rfl
@[simp] theorem State.convert_irqPend (s : State) (p : Pattern) (q : Nat) : (s.convert p q).irqPend = s.irqPend := by
  unfold State.convert; split <;> rfl
@[simp] theorem State.convert_rxq (s : State) (p : Pattern) (q : Nat) : (s.convert p q).rxq = s.rxq := by
  unfold State.convert; split <;> rfl
@[simp] theorem State.convert_inService (s : State) (p : Pattern) (q : Nat) : (s.convert p q).inService = s.inService := by
  unfold State.convert; split <;> rfl
@[simp] theorem State.convert_drainAtomic (s : State) (p : Pattern) (q : Nat) : (s.convert p q).drainAtomic = s.drainAtomic := by
  unfold State.convert; split <;> rfl
@[simp] theorem State.convert_resets (s : State) (p : Pattern) (q : Nat) : (s.convert p q).resets = s.resets := by
  unfold State.convert; split <;> rfl
@[simp] theorem State.convert_moves (s : State) (p : Pattern) (q : Nat) : (s.convert p q).moves = s.moves := by
  unfold State.convert; split <;> rfl
@[simp] theorem State.convert_load (s : State) (p : Pattern) (q : Nat) (c : Addr) :
    (s.convert p q).load c = s.load c := by
  simp [State.load]
@[simp] theorem State.convert_reading (s : State) (p : Pattern) (q : Nat) (j : Fin 9) :
    (s.convert p q).reading j = s.reading j := by
  simp [State.reading]

/-- A finite product: the wrapped integer and its overflow output, and no free value is drawn. -/
theorem State.convert_of_finite {p : Pattern} {q : Nat} (s : State) (h : productFinite p q = true) :
    s.convert p q = s.answer (.fixed (wrap16 (truncProduct p q)) (overflows (truncProduct p q))) := by
  simp [State.convert, h]

/-- Any other product: the next free value, with `ovf = 1`. -/
theorem State.convert_of_nonfinite {p : Pattern} {q : Nat} (s : State) (h : productFinite p q = false) :
    s.convert p q = { s.answer (.fixed (Config.fxNonfinite s.draws) true) with draws := s.draws + 1 } := by
  simp [State.convert, h]

/-! ### Loads depend on nothing but the bytes -/

/-- Two states that agree on every byte agree on a range and its check. -/
theorem State.checkRange_congr {s t : State} (a : Addr) (n : Nat)
    (h : ∀ j < n, s.load (a + BitVec.ofNat 9 j) = t.load (a + BitVec.ofNat 9 j)) :
    s.checkRange a n = t.checkRange a n := by
  have : s.loads a n = t.loads a n :=
    List.map_congr_left fun j hj => h j (List.mem_range.1 hj)
  rw [State.checkRange, State.checkRange, this]

@[simp] theorem State.loads_length (s : State) (a : Addr) (n : Nat) : (s.loads a n).length = n := by
  simp [State.loads]

/-- A listed move is taken; the moves after it remain. -/
theorem step_cons {s : State} {m : Move} {rest : List Move} (h : s.moves = m :: rest) :
    step s = takeMove m { s with moves := rest } := by
  simp [step, h]

/-- With nothing listed the producer is served. -/
theorem step_nil {s : State} (h : s.moves = []) : step s = serve s := by
  simp [step, h]

end Sys2Proof.Machine
end

