-- ==== Sys2Proof/Laws/PerInstr.lean ====
section
/-!
SUPPORT. Statements made per instruction: the command code the encoder writes is the table's (30_encoding.md R58), and
the decoder's table lists it once, for an operation of the same context.
-/

namespace Sys2Proof.Laws

/-- The encoded code is the operation's code, and exactly one row of the command table carries it. -/
def CodeListedOnce.Statement (i : Instr) : Prop :=
  (encode i).cmd = i.code ∧ (commandTable.filter fun row => row.1 == i.code).length = 1

theorem CodeListedOnce.wract (b : Byte) : CodeListedOnce.Statement (.wract b) := ⟨rfl, rfl⟩
theorem CodeListedOnce.swap : CodeListedOnce.Statement .swap := ⟨rfl, rfl⟩
theorem CodeListedOnce.rxb : CodeListedOnce.Statement .rxb := ⟨rfl, rfl⟩
theorem CodeListedOnce.rxack : CodeListedOnce.Statement .rxack := ⟨rfl, rfl⟩
theorem CodeListedOnce.rxirq : CodeListedOnce.Statement .rxirq := ⟨rfl, rfl⟩
theorem CodeListedOnce.check (a len : BitVec 9) : CodeListedOnce.Statement (.check a len) := ⟨rfl, rfl⟩
theorem CodeListedOnce.decf32 (a : BitVec 9) : CodeListedOnce.Statement (.decf32 a) := ⟨rfl, rfl⟩
theorem CodeListedOnce.parse : CodeListedOnce.Statement .parse := ⟨rfl, rfl⟩
theorem CodeListedOnce.tofixed (p : Pattern) (q : BitVec 8) : CodeListedOnce.Statement (.tofixed p q) := ⟨rfl, rfl⟩
theorem CodeListedOnce.fxaccx : CodeListedOnce.Statement .fxaccx := ⟨rfl, rfl⟩
theorem CodeListedOnce.fxaccy : CodeListedOnce.Statement .fxaccy := ⟨rfl, rfl⟩
theorem CodeListedOnce.fxaccz : CodeListedOnce.Statement .fxaccz := ⟨rfl, rfl⟩
theorem CodeListedOnce.fxgyrx : CodeListedOnce.Statement .fxgyrx := ⟨rfl, rfl⟩
theorem CodeListedOnce.fxgyry : CodeListedOnce.Statement .fxgyry := ⟨rfl, rfl⟩
theorem CodeListedOnce.fxgyrz : CodeListedOnce.Statement .fxgyrz := ⟨rfl, rfl⟩
theorem CodeListedOnce.fxroll : CodeListedOnce.Statement .fxroll := ⟨rfl, rfl⟩
theorem CodeListedOnce.fxpitch : CodeListedOnce.Statement .fxpitch := ⟨rfl, rfl⟩
theorem CodeListedOnce.fxyaw : CodeListedOnce.Statement .fxyaw := ⟨rfl, rfl⟩
theorem CodeListedOnce.print : CodeListedOnce.Statement .print := ⟨rfl, rfl⟩

end Sys2Proof.Laws
end

