-- ==== Sys2Proof/Laws/Run.lean ====
section
/-!
SUPPORT. What a step and a run can do, said once: a step is the meaning of one operation or one environment event, and a
run is its steps.
-/

namespace Sys2Proof.Machine

/-- A command that steps is decoded, belongs to its context, and executes. -/
theorem issue_next {by_ : Ctx} {c : Signals} {s t : State} (h : issue by_ c s = .next t) :
    ∃ i, decode c = .ok i ∧ i.ctx = by_ ∧ exec i s = .next t := by
  unfold issue at h
  split at h
  · cases h
  · rename_i i hi
    split_ifs at h with h1 h2
    exact ⟨i, hi, by simpa using h1, h⟩

/-- The producer's own step is one of RXIRQ, RXACK and RXB, taken while `irq_pend = 1`. -/
theorem serve_next {s t : State} (h : serve s = .next t) :
    s.irqPend = true ∧ ∃ i, (i = Instr.rxirq ∨ i = .rxack ∨ i = .rxb) ∧ exec i s = .next t := by
  unfold serve at h
  split_ifs at h with h1 h2 h3
  · exact ⟨h1, _, .inl rfl, h⟩
  · exact ⟨h1, _, .inr (.inl rfl), h⟩
  · exact ⟨h1, _, .inr (.inr rfl), h⟩

/-- Everything a step can be. -/
theorem step_cases {s t : State} (h : step s = .next t) :
    (s.moves = [] ∧ s.irqPend = true ∧ ∃ i, (i = Instr.rxirq ∨ i = .rxack ∨ i = .rxb) ∧ exec i s = .next t) ∨
    ∃ m rest, s.moves = m :: rest ∧
      ((∃ b, m = .envPush b ∧ t = ({ s with moves := rest } : State).push b) ∨
       (m = .reset ∧ t = ({ s with moves := rest } : State).resetEvent) ∨
       ((m = .readOvr ∨ m = .takeResult) ∧ t = { s with moves := rest }) ∨
       ∃ c i, m = .issue i.ctx c ∧ decode c = .ok i ∧ exec i { s with moves := rest } = .next t) := by
  cases hm : s.moves with
  | nil =>
    rw [step_nil hm] at h
    exact .inl ⟨rfl, serve_next h⟩
  | cons m rest =>
    rw [step_cons hm] at h
    refine .inr ⟨m, rest, rfl, ?_⟩
    cases m with
    | envPush b => cases h; exact .inl ⟨b, rfl, rfl⟩
    | reset => cases h; exact .inr (.inl ⟨rfl, rfl⟩)
    | readOvr => cases h; exact .inr (.inr (.inl ⟨.inl rfl, rfl⟩))
    | takeResult => cases h; exact .inr (.inr (.inl ⟨.inr rfl, rfl⟩))
    | issue by_ c =>
      obtain ⟨i, hd, hc, he⟩ := issue_next h
      exact .inr (.inr (.inr ⟨c, i, by rw [hc], hd, he⟩))

/-- No operation touches the moves still to be taken. -/
theorem exec_moves {i : Instr} {s t : State} (h : exec i s = .next t) : t.moves = s.moves := by
  cases i <;> simp only [exec, execWract, execSwap, execRxb, execRxack, execRxirq, execCheck, execDecf32, execParse,
    execTofixed, execFxaccx, execFxaccy, execFxaccz, execFxgyrx, execFxgyry, execFxgyrz, execFxroll, execFxpitch,
    execFxyaw, execPrint, State.access] at h
  all_goals first
    | (cases h; simp)
    | (split at h <;> cases h; simp)
    | (split_ifs at h; cases h; simp)

/-- A step uses up the first listed move. -/
theorem step_moves {s t : State} (h : step s = .next t) : t.moves = s.moves.tail := by
  rcases step_cases h with ⟨hm, -, i, -, he⟩ | ⟨m, rest, hm, h⟩
  · simp [exec_moves he, hm]
  · rcases h with ⟨b, -, rfl⟩ | ⟨-, rfl⟩ | ⟨-, rfl⟩ | ⟨c, i, -, -, he⟩
    · simp [hm]
    · simp [hm]
    · simp [hm]
    · simp [exec_moves he, hm]

/-- A run of one more step is a step and the rest of the run. -/
theorem run_succ_eq_next {n : Nat} {s t : State} :
    Host.Core.run core (n + 1) s = .next t ↔ ∃ u, step s = .next u ∧ Host.Core.run core n u = .next t := by
  have hc : core.step s = step s := rfl
  simp only [Host.Core.run, hc]
  cases step s with
  | next u => exact ⟨fun h => ⟨u, rfl, h⟩, fun ⟨v, hv, h⟩ => by cases hv; exact h⟩
  | fault r => exact ⟨fun h => (nomatch h), fun ⟨v, hv, _⟩ => (nomatch hv)⟩
  | refused r => exact ⟨fun h => (nomatch h), fun ⟨v, hv, _⟩ => (nomatch hv)⟩

theorem run_zero_eq_next {s t : State} : Host.Core.run core 0 s = .next t ↔ s = t :=
  ⟨fun h => by cases h; rfl, fun h => congrArg _ h⟩

/-- A step followed by a run. -/
theorem run_succ_of_step {n : Nat} {s u : State} (h : step s = .next u) :
    Host.Core.run core (n + 1) s = Host.Core.run core n u := by
  have hc : core.step s = .next u := h
  simp only [Host.Core.run, hc]

end Sys2Proof.Machine
end

