-- ==== Sys2Proof/Tests/Slice0.lean ====
section
/-!
SUPPORT. Tests: ill-formed terms, decoding of signals written out from the spec's table, single steps with the results
that the spec's vectors give (95_test_vectors.md; the vector is named beside each test), and one witness for every
statement of Certificates/Slice0/Obligations.lean that has hypotheses.
-/

namespace Sys2Proof.Tests

open Sys2Proof Sys2Proof.Machine

/-! ### Helpers -/

/-- The next state of an outcome, if it is one. -/
def nextOf : Host.Outcome State Fault Refusal → Option State
  | .next t => some t
  | .fault _ => none
  | .refused _ => none

/-- The reason of an outcome that is no next state. -/
def stopOf : Host.Outcome State Fault Refusal → Option (Fault ⊕ Refusal)
  | .next _ => none
  | .fault r => some (.inl r)
  | .refused r => some (.inr r)

/-- The reset state with `sel` and `wr_ptr` as the vectors write them. -/
def at_ (sel : BitVec 1) (wrPtr : BitVec 9) : State := { State.reset with sel := sel, wrPtr := wrPtr }

/-- The state with bytes stored from flat address `a` on. -/
def withBytes (s : State) (a : Nat) (bs : List Byte) : State :=
  { s with mem := bs.zipIdx.map fun c => (a + c.2, c.1) }

/-- Frame F of 95_test_vectors.md, section 7. -/
def frameF : List Byte :=
  [0x75, 0x65, 0x80, 0x1C, 0x0E, 0x04, 0x3F, 0x80, 0x00, 0x00, 0xC0, 0x20, 0x00, 0x00, 0x41, 0x1D] ++
  [0x00, 0x00, 0x0E, 0x05, 0x00, 0x00, 0x00, 0x00, 0x3E, 0x00, 0x00, 0x00, 0xBF, 0x00, 0x00, 0x00] ++
  [0x95, 0x71, 0x75, 0x65, 0x82, 0x10, 0x10, 0x05, 0x3F, 0x00, 0x00, 0x00, 0xBE, 0x80, 0x00, 0x00] ++
  [0x00, 0x00, 0x00, 0x00, 0x00, 0x01, 0xFF, 0x81]

/-- Frame F stored in `buf[0]`, with `buf[0]` the read buffer, as after the swap of program P1. -/
def frameRead : State := withBytes (at_ 1 0) 0 frameF

/-- The start of the PARSE vectors: the bytes in `buf[0]`, `sel = 0`, every register 0x11111111. -/
def frameActive (bs : List Byte) : State := { withBytes (at_ 0 56) 0 bs with x := Vector.replicate 9 0x11111111 }

/-- Four bytes stored from offset 0 of `buf[0]`, which is the read buffer. -/
def readBytes (bs : List Byte) : State := withBytes (at_ 1 0) 0 bs

/-- A pending queue. -/
def queued (s : State) (bs : List Byte) : State := { s with rxq := bs, irqPend := true }

/-- One register set. -/
def holding (i : Fin 9) (p : Pattern) : State := State.reset.setReading i p

/-! ### WellFormed: an ill-formed term for each check -/

/-- 30_encoding.md R61: a range that crosses address 255/256. -/
theorem test_check_crossing_is_illformed : (Instr.check 0x0FF 2).wellFormed = false := by decide
/-- 95_test_vectors.md DF15: `a[7:0] = 253`. -/
theorem test_decf32_crossing_is_illformed : (Instr.decf32 0x0FD).wellFormed = false := by decide
/-- 95_test_vectors.md FX9: `q = 128`. -/
theorem test_q_128_is_illformed : (Instr.tofixed 0x3F800000 128).wellFormed = false := by decide
/-- The largest operands inside the domains. -/
theorem test_boundary_operands_are_wellformed :
    (Instr.check 0x100 256).wellFormed = true ∧ (Instr.decf32 0x1FC).wellFormed = true ∧
    (Instr.tofixed 0x3F800000 127).wellFormed = true := by decide

/-! ### Decoding: codes written out from the table of 30_encoding.md R58 -/

theorem test_decode_wract : decode { cmd := 0b00000001, b := 0x75 } = .ok (.wract 0x75) := rfl
theorem test_decode_swap : decode { cmd := 0b00000010 } = .ok .swap := rfl
theorem test_decode_rxb : decode { cmd := 0b00000011 } = .ok .rxb := rfl
theorem test_decode_rxack : decode { cmd := 0b00000100 } = .ok .rxack := rfl
theorem test_decode_rxirq : decode { cmd := 0b00000101 } = .ok .rxirq := rfl
theorem test_decode_check : decode { cmd := 0b00000110, a := 0x100, len := 34 } = .ok (.check 0x100 34) := rfl
theorem test_decode_decf32 : decode { cmd := 0b00000111, a := 0x106 } = .ok (.decf32 0x106) := rfl
theorem test_decode_parse : decode { cmd := 0b00001000 } = .ok .parse := rfl
theorem test_decode_tofixed :
    decode { cmd := 0b00001001, p := 0x3F800000, q := 11 } = .ok (.tofixed 0x3F800000 11) := rfl
theorem test_decode_fxaccx : decode { cmd := 0b00010000 } = .ok .fxaccx := rfl
theorem test_decode_fxaccy : decode { cmd := 0b00010001 } = .ok .fxaccy := rfl
theorem test_decode_fxaccz : decode { cmd := 0b00010010 } = .ok .fxaccz := rfl
theorem test_decode_fxgyrx : decode { cmd := 0b00010011 } = .ok .fxgyrx := rfl
theorem test_decode_fxgyry : decode { cmd := 0b00010100 } = .ok .fxgyry := rfl
theorem test_decode_fxgyrz : decode { cmd := 0b00010101 } = .ok .fxgyrz := rfl
theorem test_decode_fxroll : decode { cmd := 0b00010110 } = .ok .fxroll := rfl
theorem test_decode_fxpitch : decode { cmd := 0b00010111 } = .ok .fxpitch := rfl
theorem test_decode_fxyaw : decode { cmd := 0b00011000 } = .ok .fxyaw := rfl
theorem test_decode_print : decode { cmd := 0b00100000 } = .ok .print := rfl
/-- The edges of R59's ranges of reserved codes. -/
theorem test_decode_reserved :
    [0x00, 0x0A, 0x0F, 0x19, 0x1F, 0x21, 0xFF].all
      (fun n => decodeTableWord 8 n == none) = true := by decide

/-! ### Single steps -/

/-- DB2. -/
theorem test_wract_stores :
    (nextOf (exec (.wract 0x1C) (at_ 1 3))).map (fun t => (t.mem, t.wrPtr, t.ovr)) =
      some ([(0x103, 0x1C)], 4, false) := by decide
/-- DB5. -/
theorem test_wract_full :
    (nextOf (exec (.wract 0x99) (at_ 0 256))).map (fun t => (t.mem, t.wrPtr, t.ovr)) = some ([], 256, true) := by decide
/-- DB3. -/
theorem test_swap_from_0 :
    (nextOf (exec .swap (at_ 0 56))).map (fun t => (t.out, t.sel, t.wrPtr)) = some (.buffer 0, 1, 0) := by decide
/-- DB7: `ovr` stays. -/
theorem test_swap_keeps_ovr :
    (nextOf (exec .swap { at_ 0 256 with ovr := true })).map (fun t => (t.out, t.ovr)) = some (.buffer 0, true) := by
  decide
/-- RX3. -/
theorem test_rxb_stores :
    (nextOf (exec .rxb (queued (at_ 0 0) [0x75, 0x65]))).map (fun t => (t.rxq, t.irqPend, t.mem, t.wrPtr)) =
      some ([0x65], true, [(0, 0x75)], 1) := by decide
/-- RX10: the byte leaves the queue and is lost. -/
theorem test_rxb_full :
    (nextOf (exec .rxb (queued (at_ 0 256) [0xAA]))).map (fun t => (t.rxq, t.irqPend, t.mem, t.ovr)) =
      some ([], true, [], true) := by decide
/-- RX5. -/
theorem test_rxack : (nextOf (exec .rxack (queued (at_ 0 0) []))).map State.irqPend = some false := by decide
/-- RX7. -/
theorem test_rxack_not_enabled : stopOf (exec .rxack (queued (at_ 0 0) [0x65])) = some (.inl .notEnabled) := by decide
/-- RX9. -/
theorem test_rxirq :
    (nextOf (exec .rxirq (queued (at_ 0 4) [0x0E, 0x04]))).map (fun t => (t.rxq, t.irqPend, t.mem, t.wrPtr)) =
      some ([], false, [(4, 0x0E), (5, 0x04)], 6) := by decide
/-- RX6. -/
theorem test_rxirq_not_enabled : stopOf (exec .rxirq State.reset) = some (.inl .notEnabled) := by decide
/-- CK5, in the read buffer. -/
theorem test_check_valid :
    (nextOf (exec (.check 0 5) (readBytes [0x01, 0x02, 0x03, 0x06, 0x0A]))).map State.out = some (.valid true) := by
  decide
/-- CK14: frame F as one range. -/
theorem test_check_whole_frame : (nextOf (exec (.check 0 56) frameRead)).map State.out = some (.valid false) := by
  decide +kernel
/-- DF10: an unaligned field. -/
theorem test_decf32_unaligned :
    (nextOf (exec (.decf32 0x007) frameRead)).map State.out = some (.pattern 0x800000C0) := by decide +kernel
/-- DF16: the write-active buffer. -/
theorem test_decf32_write_active : stopOf (exec (.decf32 0x106) frameRead) = some (.inr .writeActiveBuffer) := by
  decide
/-- PA1. -/
theorem test_parse_valid_frame :
    (nextOf (exec .parse (frameActive frameF))).map (fun t => (t.x.toList, t.sel, t.wrPtr)) =
      some ([0x3F800000, 0xC0200000, 0x411D0000, 0x00000000, 0x3E000000, 0xBF000000, 0x3F000000, 0xBE800000,
        0x00000000], 1, 0) := by decide +kernel
/-- PA3: byte 6 changed to BF. -/
theorem test_parse_bad_motion :
    (nextOf (exec .parse (frameActive (frameF.set 6 0xBF)))).map (fun t => (t.x.toList, t.sel, t.wrPtr)) =
      some (List.replicate 6 0x11111111 ++ [0x3F000000, 0xBE800000, 0x00000000], 1, 0) := by decide +kernel
/-- 44_fixed_point.md R122, the row of -16.0005. -/
theorem test_tofixed_wraps :
    (nextOf (exec (.tofixed 0xC1800106 11) State.reset)).map State.out = some (.fixed 0x7FFF true) := by decide
/-- FX10: `q + e = 254` is still formed. -/
theorem test_tofixed_edge :
    (nextOf (exec (.tofixed 0x3F800000 127) State.reset)).map State.out = some (.fixed 0 true) := by decide +kernel
/-- The examples of 44_fixed_point.md R112 to R120. -/
theorem test_fxaccx : (nextOf (exec .fxaccx (holding 0 0x3F800000))).map State.out = some (.fixed 2048 false) := by
  decide
theorem test_fxaccy : (nextOf (exec .fxaccy (holding 1 0xC0200000))).map State.out = some (.fixed (-5120) false) := by
  decide
theorem test_fxaccz : (nextOf (exec .fxaccz (holding 2 0x411D0000))).map State.out = some (.fixed 20096 false) := by
  decide
theorem test_fxgyrx : (nextOf (exec .fxgyrx (holding 3 0x00000000))).map State.out = some (.fixed 0 false) := by
  decide
theorem test_fxgyry : (nextOf (exec .fxgyry (holding 4 0x3E000000))).map State.out = some (.fixed 256 false) := by
  decide
theorem test_fxgyrz : (nextOf (exec .fxgyrz (holding 5 0xBF000000))).map State.out = some (.fixed (-1024) false) := by
  decide
theorem test_fxroll : (nextOf (exec .fxroll (holding 6 0x3F000000))).map State.out = some (.fixed 4096 false) := by
  decide
theorem test_fxpitch : (nextOf (exec .fxpitch (holding 7 0xBE800000))).map State.out = some (.fixed (-2048) false) := by
  decide
theorem test_fxyaw : (nextOf (exec .fxyaw (holding 8 0x40800000))).map State.out = some (.fixed 0x8000 true) := by
  decide
/-- 45_diagnostic.md R130: PRINT answers a text and leaves the registers. -/
theorem test_print : (nextOf (exec .print frameRead)).map State.x = some frameRead.x := by decide
/-- RX2. -/
theorem test_envpush :
    (nextOf (takeMove (.envPush 0x65) (queued State.reset [0x75]))).map (fun t => (t.rxq, t.irqPend)) =
      some ([0x75, 0x65], true) := by decide
/-- Program P4: not a possible execution when DRAIN_ATOMIC = true. -/
theorem test_parse_inside_atomic_drain :
    stopOf (takeMove (command .parse) { queued (at_ 0 40) [0x3F] with inService := true, drainAtomic := true }) =
      some (.inl .drainInProgress) := by decide

/-! ### Witnesses: for every statement with hypotheses, a state and operands that meet all of them -/

theorem witness_decodedCarriesCode :
    decode { cmd := 0x06, a := 0x1FF, len := 0x1FF, p := 1, q := 1, b := 1 } = .ok (.check 0x1FF 0x1FF) := rfl

/-- The edges of each range of reserved codes. -/
theorem witness_reservedCode (cmd : BitVec 8) (h : cmd ∈ [0x00, 0x0A, 0x0F, 0x19, 0x1F, 0x21, 0xFF]) :
    ∃ s : State, s.moves = [.issue .producer { cmd := cmd }] ∧
      (cmd.toNat = 0 ∨ (0x0A ≤ cmd.toNat ∧ cmd.toNat ≤ 0x0F) ∨ (0x19 ≤ cmd.toNat ∧ cmd.toNat ≤ 0x1F) ∨
        0x21 ≤ cmd.toNat) :=
  ⟨{ State.reset with moves := [.issue .producer { cmd := cmd }] }, rfl, by revert cmd; decide⟩

theorem witness_wrongContext :
    ∃ s : State, s.moves = [.issue .consumer { cmd := 0x01, b := 0x75 }] ∧
      decode { cmd := 0x01, b := 0x75 } = .ok (.wract 0x75) ∧ (Instr.wract 0x75).ctx ≠ .consumer :=
  ⟨{ State.reset with moves := [.issue .consumer { cmd := 0x01, b := 0x75 }] }, rfl, rfl, by decide⟩

/-- A consumer command inside a drain that is not atomic. -/
theorem witness_stepRunsDecoded :
    ∃ s : State, s.moves = [.issue .consumer { cmd := 0x02 }] ∧ decode { cmd := 0x02 } = .ok .swap ∧
      Instr.swap.ctx = .consumer ∧ (Instr.swap.ctx = .consumer → s.inService = true → s.drainAtomic = false) :=
  ⟨{ State.reset with moves := [.issue .consumer { cmd := 0x02 }], inService := true, irqPend := true },
    rfl, rfl, rfl, fun _ _ => rfl⟩

theorem witness_presentedWordRuns :
    (Instr.check 0x122 22).ctx = .consumer → State.reset.inService = true → State.reset.drainAtomic = false :=
  fun _ _ => rfl

/-- Both values of DRAIN_ATOMIC. -/
theorem witness_consumerKeptOutOfAtomicDrain (d : Bool) :
    ∃ s : State, Instr.print.ctx = .consumer ∧ s.moves = [command .print] ∧ s.inService = true ∧ s.drainAtomic = d :=
  ⟨{ State.reset with moves := [command .print], inService := true, irqPend := true, drainAtomic := d },
    rfl, rfl, rfl, rfl⟩

theorem witness_quiescentHasNoStep : State.reset.moves = [] ∧ State.reset.irqPend = false := by decide

/-- The edges of the two address domains after reset. -/
theorem witness_resetValues :
    (Instr.check 0x100 256).ctx = .consumer ∧ (Instr.check 0x100 256).wellFormed = true ∧
    256 ≤ (0x100 : BitVec 9).toNat ∧ (Instr.decf32 0x1FC).ctx = .consumer ∧ (Instr.decf32 0x1FC).wellFormed = true ∧
    256 ≤ (0x1FC : BitVec 9).toNat ∧ (Instr.tofixed 0x7FC00000 127).wellFormed = true := by decide

/-- A RESET followed by a move that keeps the roles, and addresses at both edges of both buffers. -/
theorem witness_resetEventClearsAll :
    ∃ s t u : State, s.moves = [.reset, .envPush 0x75] ∧ step s = .next t ∧
      (∀ m ∈ [Move.envPush 0x75].take 1, keepsRoles m = true) ∧ Host.Core.run core 1 t = .next u ∧
      s.ovr = true ∧ t.ovr = false ∧
      (0x0FC : Addr).toNat % 256 ≤ 252 ∧ (0x100 : Addr).toNat % 256 + (256 : BitVec 9).toNat ≤ 256 :=
  ⟨{ at_ 0 256 with moves := [.reset, .envPush 0x75], ovr := true }, _, _, rfl, rfl, by decide, rfl, rfl, rfl,
    by decide, by decide⟩

/-- A step that makes the queue longer, and one that sets the pending bit. -/
theorem witness_envPushAppendsAndAlone :
    ∃ s t : State, s.moves = [.envPush 0x75] ∧ step s = .next t ∧ s.rxq.length < t.rxq.length ∧
      s.irqPend = false ∧ t.irqPend = true :=
  ⟨{ State.reset with moves := [.envPush 0x75] }, _, rfl, rfl, by decide, rfl, rfl⟩

theorem witness_observationsChangeNothing :
    ∃ s t : State, s.moves = [.readOvr] ∧ t.moves = [.takeResult] :=
  ⟨{ State.reset with moves := [.readOvr] }, { State.reset with moves := [.takeResult] }, rfl, rfl⟩

/-- WRACT's two branches at their edges. -/
theorem witness_wractStoresOrFlags : (at_ 0 255).wrPtr.toNat < 256 ∧ ¬ (at_ 0 256).wrPtr.toNat < 256 := by decide

/-- After a SWAP, a byte of the buffer handed over, and a role-keeping run. -/
theorem witness_swapHandsOver :
    ∃ t u : State, exec .swap { at_ 0 56 with moves := [command (.wract 0x11)] } = .next t ∧
      (∀ m ∈ t.moves.take 1, keepsRoles m = true) ∧ Host.Core.run core 1 t = .next u ∧ bufferOf 0x0FF = (0 : BitVec 1) :=
  ⟨_, _, rfl, by decide, rfl, by decide⟩

/-- A window of one byte; `j = 0` is its last byte, and 0x001 the first stale one. -/
theorem witness_captureWindow :
    ∃ s : State, s.wrPtr = 0 ∧ (s.inService = true → s.drainAtomic = false) ∧
      s.moves = [0x75].map (fun b => command (.wract b)) ++ command .swap :: [] ∧
      0 < [(0x75 : Byte)].length ∧ (bufferOf 0x001 = s.sel → min [(0x75 : Byte)].length 256 ≤ offsetOf 0x001) :=
  ⟨{ State.reset with moves := [command (.wract 0x75), command .swap] }, rfl, fun _ => rfl, rfl, by decide,
    by decide⟩

/-- DB11's state, and the last offset with room. -/
theorem witness_storeAndSwapSerialise :
    (at_ 0 5).wrPtr.toNat < 256 ∧ (at_ 0 255).wrPtr.toNat < 256 ∧
    ((at_ 0 255).inService = true → (at_ 0 255).drainAtomic = false) := by decide

theorem witness_rxbMovesHead :
    ∃ s t u : State, s.irqPend = true ∧ s.rxq = 0xAA :: [] ∧ t.irqPend = false ∧ u.rxq = [] :=
  ⟨queued (at_ 0 256) [0xAA], State.reset, queued State.reset [], rfl, rfl, rfl, rfl⟩

theorem witness_rxackAcknowledges :
    ∃ s t u v : State, s.irqPend = true ∧ s.rxq = [] ∧ t.irqPend = false ∧ u.rxq ≠ [] ∧ u.irqPend = true ∧
      (u.rxq ≠ [] → u.irqPend = true) ∧ takeMove (command .rxb) u = .next v :=
  ⟨queued State.reset [], State.reset, queued State.reset [0x65], _, rfl, rfl, rfl, by decide, rfl, fun _ => rfl, rfl⟩

/-- Each clause about the mark of a service. -/
theorem witness_serviceMarked :
    (∃ t, exec .rxb (queued State.reset [0x75]) = .next t) ∧ (∃ t, exec .rxack (queued State.reset []) = .next t) ∧
    (∃ t, exec .rxirq (queued State.reset [0x75]) = .next t) ∧
    (∃ t, step { queued State.reset [0x75] with moves := [.reset] } = .next t) ∧
    (∃ t, exec .swap { queued State.reset [0x75] with inService := true } = .next t) ∧
    (∃ t, step { State.reset with moves := [.envPush 0x75] } = .next t) :=
  ⟨⟨_, rfl⟩, ⟨_, rfl⟩, ⟨_, rfl⟩, ⟨_, rfl⟩, ⟨_, rfl⟩, ⟨_, rfl⟩⟩

/-- The first queued byte fills the buffer and the second is lost; the byte below `wr_ptr` is outside. -/
theorem witness_rxirqDrainsQueue :
    ∃ s : State, s.irqPend = true ∧ s.wrPtr.toNat ≤ 256 ∧ 0 < s.rxq.length ∧ s.wrPtr.toNat + 0 < 256 ∧
      (bufferOf 0x0FE = s.sel → offsetOf 0x0FE < s.wrPtr.toNat ∨ s.wrPtr.toNat + s.rxq.length ≤ offsetOf 0x0FE) ∧
      State.reset.irqPend = false :=
  ⟨queued (at_ 0 255) [0x0E, 0x04], rfl, by decide, by decide, by decide, by decide, rfl⟩

theorem witness_rxirqEqualsItsSteps :
    ∃ s : State, s.irqPend = true ∧
      s.moves = List.replicate s.rxq.length (command .rxb) ++ command .rxack :: [] :=
  ⟨{ queued State.reset [0x0E, 0x04] with moves := [command .rxb, command .rxb, command .rxack] }, rfl, rfl⟩

theorem witness_serviceReachesQuiescence :
    ∃ s : State, s.moves = [] ∧ s.irqPend = true ∧ s.rxq ≠ [] := ⟨queued State.reset [0x75], rfl, rfl, by decide⟩

/-- The byte before the SWAP fills the old buffer; one queued byte and one that arrives in the drain follow it. -/
theorem witness_drainInterleaves :
    ∃ s : State, s.irqPend = true ∧ s.rxq = [0x01] ++ [0x02] ∧ s.drainAtomic = false ∧ s.wrPtr.toNat ≤ 256 ∧
      s.moves = List.replicate [(0x01 : Byte)].length (command .rxb) ++ [0x03].map Move.envPush ++ command .swap ::
        List.replicate ([(0x02 : Byte)].length + [(0x03 : Byte)].length) (command .rxb) ++ command .rxack :: [] ∧
      0 < [(0x01 : Byte)].length ∧ s.wrPtr.toNat + 0 < 256 ∧ 1 < ([(0x02 : Byte)] ++ [0x03]).length ∧
      (bufferOf 0x0FE = s.sel → offsetOf 0x0FE < s.wrPtr.toNat ∨ s.wrPtr.toNat + [(0x01 : Byte)].length ≤ offsetOf 0x0FE) ∧
      (bufferOf 0x102 = ~~~ s.sel → ([(0x02 : Byte)] ++ [0x03]).length ≤ offsetOf 0x102) :=
  ⟨{ queued (at_ 0 255) [0x01, 0x02] with
      moves := [command .rxb, .envPush 0x03, command .swap, command .rxb, command .rxb, command .rxack] },
    rfl, rfl, rfl, by decide, rfl, by decide, by decide, by decide, by decide, by decide⟩

/-- A whole buffer, and the short lengths, in the read buffer `buf[1]` of the reset state. -/
theorem witness_checkDomain :
    (0x100 : BitVec 9).toNat % 256 + (256 : BitVec 9).toNat ≤ 256 ∧
    (0x1FF : BitVec 9).toNat % 256 + (1 : BitVec 9).toNat ≤ 256 ∧
    (0x1FE : BitVec 9).toNat % 256 + (2 : BitVec 9).toNat ≤ 256 ∧
    (0x100 : BitVec 9).toNat / 256 = 1 - State.reset.sel.toNat ∧
    (0x1FF : BitVec 9).toNat / 256 = 1 - State.reset.sel.toNat := by decide

/-- Both answers of CHECK occur on admitted ranges. -/
theorem witness_checkAnswers :
    rangeValid [0x01, 0x02, 0x03, 0x06, 0x0A] = true ∧ rangeValid [0x01, 0x02, 0x03, 0x06, 0x0B] = false := by decide

/-- The highest bit of the last byte, of a valid range. -/
theorem witness_singleBitFlip :
    rangeValid [0x01, 0x02, 0x03, 0x06, 0x0A] = true ∧ 4 < [(0x01 : Byte), 0x02, 0x03, 0x06, 0x0A].length ∧ 7 < 8 := by
  decide

/-- CK10, with the two trailer bytes. -/
theorem witness_balancedChange : 2 ≤ [(0x06 : Byte), 0x0A].length := by decide

/-- Each clause at the edge of the address domain. -/
theorem witness_decf32 :
    (0x1FC : BitVec 9).toNat % 256 ≤ 252 ∧ (0x1FC : BitVec 9).toNat / 256 = 1 - State.reset.sel.toNat ∧
    252 < (0x0FD : BitVec 9).toNat % 256 ∧ (0x006 : BitVec 9).toNat / 256 = State.reset.sel.toNat := by decide

theorem witness_zeroBufferParses :
    ∃ s : State, ∀ i < 56, s.load (flat s.sel i) = 0 :=
  ⟨withBytes State.reset 0 (List.replicate 56 0), by decide +kernel⟩

/-- PARSE and its pieces, with a byte stored in between. -/
theorem witness_parseEqualsItsPieces :
    ∃ s p u t : State, exec .parse s = .next p ∧ exec .swap s = .next u ∧
      (∀ m ∈ u.moves.take 1, keepsRoles m = true) ∧ Host.Core.run core 1 u = .next t :=
  ⟨{ frameActive frameF with moves := [command (.wract 0x11)] }, _, _, _, rfl, rfl, by decide, rfl⟩

theorem witness_deliveredFrame :
    ∃ s : State, frameF.length = 56 ∧ s.Quiescent ∧ s.wrPtr = 0 ∧
      s.moves = frameF.map Move.envPush ++ command .rxirq :: command .parse :: [] :=
  ⟨{ State.reset with moves := frameF.map Move.envPush ++ command .rxirq :: command .parse :: [] },
    by decide, ⟨rfl, rfl⟩, rfl, rfl⟩

/-- A finite pattern, and each side of the interval at Q11. -/
theorem witness_overflowInterval :
    expField 0x417FFE00 ≠ 255 ∧ expField 0x41800000 ≠ 255 ∧ expField 0xC1800106 ≠ 255 := by decide

/-- A subnormal at the largest Q factor of its clause, a normal value below `2^-11`, and a subnormal on each side of the
edge at `q = 127`. -/
theorem witness_tinyValues :
    (126 : BitVec 8).toNat ≤ 127 ∧ expField 0x007FFFFF ≠ 255 ∧ expField 0x007FFFFF = 0 ∧ (126 : BitVec 8).toNat ≤ 126 ∧
    fracField 0x003FFFFF < 2 ^ 22 ∧ expField 0x003FFFFF = 0 ∧ ¬ fracField 0x00400000 < 2 ^ 22 ∧
    expField 0x00400000 = 0 := by decide

theorem witness_tinyNormal :
    expField 0x39D1B717 ≠ 255 ∧ (11 : BitVec 8).toNat ≤ 127 ∧ |val32 0x39D1B717| * 2 ^ (11 : BitVec 8).toNat < 1 := by
  refine ⟨by decide, by decide, ?_⟩
  have h1 : expField 0x39D1B717 = 115 := by decide
  have h2 : fracField 0x39D1B717 = 5355287 := by decide
  have h3 : signBit 0x39D1B717 = false := by decide
  have h4 : (11 : BitVec 8).toNat = 11 := rfl
  simp only [val32, h1, h2, h3, h4]
  norm_num

theorem witness_accessorRegister :
    ∃ i j, (i, j) ∈ ([(.fxaccx, 0), (.fxyaw, 8)] : List (Instr × Fin 9)) := ⟨.fxyaw, 8, by decide⟩

/-- Each clause at the edge of its domain. -/
theorem witness_operandDomain :
    512 < (0x1FF : BitVec 9).toNat + (2 : BitVec 9).toNat ∧ 256 < (0x0FF : BitVec 9).toNat % 256 + (2 : BitVec 9).toNat ∧
    (0x000 : BitVec 9).toNat / 256 = State.reset.sel.toNat ∧ 252 < (0x1FD : BitVec 9).toNat % 256 ∧
    127 < (128 : BitVec 8).toNat ∧ (1 : BitVec 9).toNat < 2 ∧ (0x1FF : BitVec 9).toNat / 256 ≠ State.reset.sel.toNat := by
  decide

/-- Two states with the same registers. -/
theorem witness_printReadsOnlyReadings :
    ∃ s t u v : State, (∀ j, s.reading j = t.reading j) ∧ exec .print s = .next u ∧ exec .print t = .next v :=
  ⟨at_ 0 0, at_ 1 5, _, _, fun _ => rfl, rfl, rfl⟩

/-- One operation of each context, for the frames over all operations. -/
theorem witness_frames :
    (∃ t, Instr.swap.ctx = .consumer ∧ exec .swap State.reset = .next t ∧ Instr.swap ≠ .parse) ∧
    (∃ t, (Instr.fxyaw).ctx = .consumer ∧ exec .fxyaw State.reset = .next t ∧ Instr.fxyaw ≠ .swap ∧ Instr.fxyaw ≠ .parse) ∧
    (∃ t, (Instr.wract 0x75).ctx = .producer ∧ exec (.wract 0x75) State.reset = .next t ∧
      bufferOf 0x1FF = ~~~ State.reset.sel) ∧
    (∃ t, Instr.rxack.ctx = .producer ∧ exec .rxack (queued State.reset []) = .next t) :=
  ⟨⟨_, rfl, rfl, by decide⟩, ⟨_, rfl, rfl, by decide, by decide⟩, ⟨_, rfl, rfl, by decide⟩, ⟨_, rfl, rfl⟩⟩

/-- Two states that differ in a byte of the write-active buffer, and a load of the read buffer. -/
theorem witness_writeActiveBytesUnseen :
    ∃ s : State, (Instr.decf32 0x000).ctx = .consumer ∧ Instr.decf32 0x000 ≠ .parse ∧
      (∀ c, bufferOf c = ~~~ s.sel → ({ s with mem := [(0x100, 0x75)] } : State).load c = s.load c) ∧
      ∃ t, exec (.decf32 0x000) s = .next t :=
  ⟨at_ 1 0, rfl, by decide, by
    intro c hc
    have h : c.toNat ≠ 0x100 := by
      intro h
      have : c = 0x100 := BitVec.eq_of_toNat_eq h
      subst this
      revert hc
      decide
    simp [State.load, Memory.find, at_, State.reset, Ne.symm h], _, rfl⟩

theorem witness_stepKeepsInvariant :
    ∃ s t : State, s.Inv ∧ step s = .next t ∧ s.inService = true ∧ s.mem ≠ [] :=
  ⟨{ queued (withBytes (at_ 0 256) 0 [0x75]) [0xAA] with inService := true }, _,
    ⟨by decide, by decide, by decide, by decide⟩, rfl, rfl, by decide⟩

/-- A run that stores, and a byte of the read buffer. -/
theorem witness_readBufferStable :
    ∃ s t : State, (∀ m ∈ s.moves.take 1, keepsRoles m = true) ∧ Host.Core.run core 1 s = .next t ∧
      bufferOf 0x100 = ~~~ s.sel :=
  ⟨{ State.reset with moves := [command (.wract 0x75)] }, _, by decide, rfl, by decide⟩

theorem witness_overrunSticky :
    ∃ s t : State, (∀ m ∈ s.moves.take 1, m ≠ .reset) ∧ Host.Core.run core 1 s = .next t ∧ s.ovr = true :=
  ⟨{ at_ 0 256 with moves := [command .parse], ovr := true }, _, by decide, rfl, rfl⟩

/-- The last byte of a buffer, and another byte of the same buffer. -/
theorem witness_storesVisibleAcrossSwap :
    ∃ s t u v : State, s.wrPtr.toNat < 256 ∧ exec (.wract 0xEE) s = .next t ∧ exec .swap t = .next u ∧
      (∀ m ∈ u.moves.take 1, keepsRoles m = true) ∧ Host.Core.run core 1 u = .next v ∧
      bufferOf 0x000 = s.sel ∧ (0x000 : Addr) ≠ flat s.sel s.wrPtr.toNat :=
  ⟨{ at_ 0 255 with moves := [command (.wract 0x11)] }, _, _, _, by decide, rfl, rfl, by decide, rfl, by decide,
    by decide⟩

end Sys2Proof.Tests
end

/-! ## Proofs of the family `10_state.md` -/

namespace Sys2Proof

/-- The consumer operations that only answer: all but SWAP and PARSE (60_exceptions.md R151). -/
def Instr.onlyAnswers (i : Instr) : Prop := i.ctx = .consumer ∧ i ≠ .swap ∧ i ≠ .parse

end Sys2Proof

namespace Sys2Proof.Machine

/-! ### What an operation can do, by its constructor -/

/-- A conversion writes its answer and counts the free values it draws (log entry 5). -/
theorem State.convert_frame (s : State) (p : Pattern) (q : Nat) :
    s.convert p q = { s with out := (s.convert p q).out, draws := (s.convert p q).draws } := by
  unfold State.convert; split <;> rfl

theorem exec_rxb_cases {s t : State} (h : exec .rxb s = .next t) :
    ∃ b rest, s.irqPend = true ∧ s.rxq = b :: rest ∧ t = s.receive b rest := by
  simp only [exec, execRxb] at h
  split at h
  · next b rest hp hq => cases h; exact ⟨b, rest, hp, hq, rfl⟩
  · cases h

theorem exec_rxack_cases {s t : State} (h : exec .rxack s = .next t) :
    s.irqPend = true ∧ s.rxq = [] ∧ t = s.leaveService := by
  simp only [exec, execRxack] at h
  split at h
  · next hp hq => cases h; exact ⟨hp, hq, rfl⟩
  · cases h

theorem exec_rxirq_cases {s t : State} (h : exec .rxirq s = .next t) :
    s.irqPend = true ∧ t = (State.drain s.rxq s).leaveService := by
  simp only [exec, execRxirq] at h
  split_ifs at h with hp
  cases h; exact ⟨hp, rfl⟩

theorem exec_check_cases {a len : BitVec 9} {s t : State} (h : exec (.check a len) s = .next t) :
    rangeInBuffer a len.toNat = true ∧ s.inReadBuffer a = true ∧
      t = s.answer (.valid (s.checkRange a len.toNat)) := by
  simp only [exec, execCheck] at h
  split_ifs at h with hr hb
  cases h; exact ⟨by simpa using hr, by simpa using hb, rfl⟩

theorem exec_decf32_cases {a : BitVec 9} {s t : State} (h : exec (.decf32 a) s = .next t) :
    rangeInBuffer a 4 = true ∧ s.inReadBuffer a = true ∧ t = s.answer (.pattern (s.load32 a)) := by
  simp only [exec, execDecf32] at h
  split_ifs at h with hr hb
  cases h; exact ⟨by simpa using hr, by simpa using hb, rfl⟩

theorem exec_tofixed_cases {p : Pattern} {q : BitVec 8} {s t : State} (h : exec (.tofixed p q) s = .next t) :
    qAdmitted q = true ∧ t = s.convert p q.toNat := by
  simp only [exec, execTofixed] at h
  split_ifs at h with hq
  cases h; exact ⟨by simpa using hq, rfl⟩

/-- An operation that only answers writes the result outputs and the count of draws. -/
theorem exec_frame_of_onlyAnswers {i : Instr} {s t : State} (hi : i.onlyAnswers) (h : exec i s = .next t) :
    t = { s with out := t.out, draws := t.draws } := by
  obtain ⟨hc, hs, hp⟩ := hi
  cases i with
  | wract | rxb | rxack | rxirq => cases hc
  | swap => exact absurd rfl hs
  | parse => exact absurd rfl hp
  | check => obtain ⟨-, -, rfl⟩ := exec_check_cases h; rfl
  | decf32 => obtain ⟨-, -, rfl⟩ := exec_decf32_cases h; rfl
  | tofixed => obtain ⟨-, rfl⟩ := exec_tofixed_cases h; exact s.convert_frame _ _
  | print => cases h; rfl
  | fxaccx | fxaccy | fxaccz | fxgyrx | fxgyry | fxgyrz | fxroll | fxpitch | fxyaw =>
    cases h; exact s.convert_frame _ _

/-- Everything an operation can do: the six operations that change the block's state, and those that only answer. -/
theorem exec_cases {i : Instr} {s t : State} (h : exec i s = .next t) :
    (∃ b, i = .wract b ∧ t = s.append b) ∨
    (∃ b rest, i = .rxb ∧ s.irqPend = true ∧ s.rxq = b :: rest ∧ t = s.receive b rest) ∨
    (i = .rxack ∧ s.irqPend = true ∧ s.rxq = [] ∧ t = s.leaveService) ∨
    (i = .rxirq ∧ s.irqPend = true ∧ t = (State.drain s.rxq s).leaveService) ∨
    (i = .swap ∧ t = s.handOver.answer (.buffer s.sel)) ∨
    (i = .parse ∧ t = (((s.handOver).parseSubframe s.sel Config.sf1Base Config.sf1Len Config.motionFields).parseSubframe
      s.sel Config.sf2Base Config.sf2Len Config.orientFields).answer .none) ∨
    (i.onlyAnswers ∧ t = { s with out := t.out, draws := t.draws }) := by
  by_cases hi : i.onlyAnswers
  · exact .inr (.inr (.inr (.inr (.inr (.inr ⟨hi, exec_frame_of_onlyAnswers hi h⟩)))))
  cases i with
  | wract b => cases h; exact .inl ⟨b, rfl, rfl⟩
  | rxb =>
    obtain ⟨b, rest, hp, hq, rfl⟩ := exec_rxb_cases h
    exact .inr (.inl ⟨b, rest, rfl, hp, hq, rfl⟩)
  | rxack => exact .inr (.inr (.inl ⟨rfl, exec_rxack_cases h⟩))
  | rxirq => exact .inr (.inr (.inr (.inl ⟨rfl, exec_rxirq_cases h⟩)))
  | swap => cases h; exact .inr (.inr (.inr (.inr (.inl ⟨rfl, rfl⟩))))
  | parse => cases h; exact .inr (.inr (.inr (.inr (.inr (.inl ⟨rfl, rfl⟩)))))
  | check | decf32 | tofixed | fxaccx | fxaccy | fxaccz | fxgyrx | fxgyry | fxgyrz | fxroll | fxpitch | fxyaw
  | print => exact absurd ⟨rfl, nofun, nofun⟩ hi

/-! ### The invariant, by state update -/

theorem State.reset_inv : State.reset.Inv := ⟨⟨.nil, nofun⟩, by decide, nofun, nofun⟩

theorem State.resetEvent_inv (s : State) : s.resetEvent.Inv := ⟨⟨.nil, nofun⟩, by simp, nofun, nofun⟩

theorem State.push_inv {s : State} (b : Byte) (h : s.Inv) : (s.push b).Inv := by
  obtain ⟨hm, hw, -, -⟩ := h
  exact ⟨hm, hw, fun _ => rfl, fun _ => rfl⟩

theorem State.append_wrPtr_le {s : State} (b : Byte) (h : s.wrPtr.toNat ≤ 256) : (s.append b).wrPtr.toNat ≤ 256 := by
  rw [State.append_wrPtr_toNat]; split <;> omega

theorem State.drain_wrPtr_le (bs : List Byte) {s : State} (h : s.wrPtr.toNat ≤ 256) :
    (State.drain bs s).wrPtr.toNat ≤ 256 := by
  induction bs generalizing s with
  | nil => exact h
  | cons b bs ih => exact ih (by rw [State.receive_wrPtr]; exact State.append_wrPtr_le b h)

theorem State.append_inv {s : State} (b : Byte) (h : s.Inv) : (s.append b).Inv := by
  obtain ⟨hm, hw, hq, hs⟩ := h
  exact ⟨State.append_wf b hm, State.append_wrPtr_le b hw, by simpa using hq, by simpa using hs⟩

/-- RXB keeps the invariant where it is enabled: the condition stays pending for the rest of the queue. -/
theorem State.receive_inv {s : State} (b : Byte) (rest : List Byte) (hp : s.irqPend = true) (h : s.Inv) :
    (s.receive b rest).Inv := by
  obtain ⟨hm, hw, -, -⟩ := h
  exact ⟨by rw [State.receive_mem]; exact State.append_wf b hm,
    by rw [State.receive_wrPtr]; exact State.append_wrPtr_le b hw, by simp [hp], by simp [hp]⟩

/-- The acknowledgement keeps the invariant only because the queue is empty then. -/
theorem State.leaveService_inv {s : State} (hm : Memory.wf s.mem) (hw : s.wrPtr.toNat ≤ 256) (hq : s.rxq = []) :
    s.leaveService.Inv :=
  ⟨hm, hw, by simp [hq], by simp⟩

theorem State.answer_inv {s : State} (o : Output) (h : s.Inv) : (s.answer o).Inv := h

theorem State.handOver_inv {s : State} (h : s.Inv) : s.handOver.Inv := by
  obtain ⟨hm, -, hq, hs⟩ := h
  exact ⟨hm, by simp, hq, hs⟩

theorem State.parseSubframe_inv {s : State} (k : BitVec 1) (a n : Nat) (fs : List (Fin 9)) (h : s.Inv) :
    (s.parseSubframe k a n fs).Inv := by
  simpa [State.Inv] using h

/-- Every operation keeps the invariant, in whatever state it is executed. -/
theorem exec_inv {i : Instr} {s t : State} (hs : s.Inv) (h : exec i s = .next t) : t.Inv := by
  rcases exec_cases h with ⟨b, -, rfl⟩ | ⟨b, rest, -, hp, -, rfl⟩ | ⟨-, -, hq, rfl⟩ | ⟨-, -, rfl⟩ | ⟨-, rfl⟩ |
    ⟨-, rfl⟩ | ⟨-, ht⟩
  · exact State.append_inv b hs
  · exact State.receive_inv b rest hp hs
  · obtain ⟨hm, hw, -, -⟩ := hs
    exact State.leaveService_inv hm hw hq
  · obtain ⟨hm, hw, -, -⟩ := hs
    exact State.leaveService_inv (State.drain_wf _ hm) (State.drain_wrPtr_le _ hw) (State.drain_rxq s)
  · exact State.answer_inv _ (State.handOver_inv hs)
  · have hmotion := State.parseSubframe_inv s.sel Config.sf1Base Config.sf1Len Config.motionFields (State.handOver_inv hs)
    exact State.answer_inv _ (State.parseSubframe_inv _ _ _ _ hmotion)
  · rw [ht]; exact hs

/-- Settles O50: a step is an environment event or an operation, and each of them keeps the invariant. -/
theorem stepKeepsInvariant : Obligations.StepKeepsInvariant := by
  intro s t hs h
  rcases step_cases h with ⟨-, -, i, -, he⟩ | ⟨m, rest, -, hm⟩
  · exact exec_inv hs he
  · have hs' : ({ s with moves := rest } : State).Inv := hs
    rcases hm with ⟨b, -, rfl⟩ | ⟨-, rfl⟩ | ⟨-, rfl⟩ | ⟨c, i, -, -, he⟩
    · exact State.push_inv b hs'
    · exact State.resetEvent_inv _
    · exact hs'
    · exact exec_inv hs' he

/-- Settles O49: nothing is stored or queued, and no service has been entered. -/
theorem resetMeetsInvariant : Obligations.ResetMeetsInvariant := State.reset_inv

/-- Settles O46, by what each operation can do: among the cases only PARSE writes a register. -/
theorem onlyParseWritesReadings : Obligations.OnlyParseWritesReadings := by
  intro i s t hi h j
  rcases exec_cases h with ⟨b, -, rfl⟩ | ⟨b, rest, -, -, -, rfl⟩ | ⟨-, -, -, rfl⟩ | ⟨-, -, rfl⟩ | ⟨-, rfl⟩ |
    ⟨hp, -⟩ | ⟨-, ht⟩
  · exact s.append_reading b j
  · exact s.receive_reading b rest j
  · rfl
  · exact State.drain_reading s.rxq s j
  · rfl
  · exact absurd hp hi
  · rw [ht]; rfl

/-! ### A frame of zero bytes -/

/-- The sums of zero bytes stay at their start value 0 (42_checksum.md R93). -/
theorem fletcher_replicate_zero (n : Nat) : fletcher (List.replicate n 0#8) = (0, 0) := by
  have hstep : fletcherStep (0, 0) 0#8 = (0, 0) := rfl
  unfold fletcher
  induction n with
  | zero => rfl
  | succ n ih => simpa only [List.replicate_succ, List.foldl_cons, Config.sumStart, hstep] using ih

/-- A range of two or more zero bytes is valid. -/
theorem rangeValid_replicate_zero {n : Nat} (h : 2 ≤ n) : rangeValid (List.replicate n 0#8) = true := by
  have h1 : ¬ n < 2 := by omega
  have h2 : n - 2 < n := by omega
  have h3 : n - 1 < n := by omega
  simp [rangeValid, h1, h2, h3, fletcher_replicate_zero]

section ZeroFrame

variable {s : State} {k : BitVec 1} (hz : ∀ i < 56, s.load (flat k i) = 0)
include hz

/-- A range inside 56 zero bytes passes its check. -/
theorem State.checkRange_of_zero {a n : Nat} (hn : 2 ≤ n) (ha : a + n ≤ 56) : s.checkRange (flat k a) n = true := by
  have hl : s.loads (flat k a) n = List.replicate n 0#8 := by
    refine List.eq_replicate_iff.2 ⟨s.loads_length _ _, fun b hb => ?_⟩
    obtain ⟨j, hj, rfl⟩ := List.mem_map.1 hb
    rw [flat_add]
    exact hz _ (by have := List.mem_range.1 hj; omega)
  rw [State.checkRange, hl, rangeValid_replicate_zero hn]

/-- A field inside 56 zero bytes reads as the zero pattern. -/
theorem State.load32_of_zero {o : Nat} (ho : o + 3 < 56) : s.load32 (flat k o) = 0 := by
  have hb : ∀ j < 4, s.load (flat k o + BitVec.ofNat 9 j) = 0 := fun j hj => by
    rw [flat_add]; exact hz _ (by omega)
  have h0 := hz o (by omega)
  have h1 : s.load (flat k o + 1) = 0 := hb 1 (by decide)
  have h2 : s.load (flat k o + 2) = 0 := hb 2 (by decide)
  have h3 : s.load (flat k o + 3) = 0 := hb 3 (by decide)
  rw [State.load32, h0, h1, h2, h3]
  rfl

/-- A sub-frame of zeros writes zero to each of its registers and keeps the others. -/
theorem State.parseSubframe_reading_of_zero {a n : Nat} (hn : 2 ≤ n) (ha : a + n ≤ 56) (fs : List (Fin 9))
    (j : Fin 9) : (s.parseSubframe k a n fs).reading j = if j ∈ fs then 0 else s.reading j := by
  have ho : Config.fieldOffset j + 3 < 56 := by revert j; decide
  rw [State.parseSubframe_reading, State.checkRange_of_zero hz hn ha, State.load32_of_zero hz ho]
  simp

end ZeroFrame

/-- Settles O32: both sub-frames are zero bytes, and every register belongs to one of them. -/
theorem zeroBufferParses : Obligations.ZeroBufferParses := by
  intro s hz
  refine ⟨_, rfl, fun j => ?_⟩
  have hj : j ∈ Config.motionFields ∨ j ∈ Config.orientFields := by revert j; decide
  rw [State.answer_reading, State.parseSubframe_reading_of_zero (by simpa using hz) (by decide) (by decide),
    State.parseSubframe_reading_of_zero (by simpa using hz) (by decide) (by decide)]
  rcases hj with hj | hj <;> simp [hj]

/-! ### The values after reset -/

/-- A consumer operation answers in every state, on operands inside its domain (30_encoding.md R61). -/
theorem exec_next_of_consumer {i : Instr} {s : State} (hc : i.ctx = .consumer) (hw : i.wellFormed = true)
    (hcheck : ∀ a len, i = .check a len → s.inReadBuffer a = true)
    (hdec : ∀ a, i = .decf32 a → s.inReadBuffer a = true) : ∃ t, exec i s = .next t := by
  cases i with
  | wract | rxb | rxack | rxirq => cases hc
  | check a len =>
    have hr : rangeInBuffer a len.toNat = true := hw
    exact ⟨_, by simp only [exec, execCheck, hr, hcheck a len rfl]; rfl⟩
  | decf32 a =>
    have hr : rangeInBuffer a 4 = true := hw
    exact ⟨_, by simp only [exec, execDecf32, hr, hdec a rfl]; rfl⟩
  | tofixed p q =>
    have hq : qAdmitted q = true := hw
    exact ⟨_, by simp only [exec, execTofixed, hq]; rfl⟩
  | swap | parse | fxaccx | fxaccy | fxaccz | fxgyrx | fxgyry | fxgyrz | fxroll | fxpitch | fxyaw | print =>
    exact ⟨_, rfl⟩

/-- After reset the read buffer is `buf[1]`. -/
theorem State.reset_inReadBuffer {a : Addr} (h : 256 ≤ a.toNat) : State.reset.inReadBuffer a = true := by
  have ha := a.isLt
  have hsel : State.reset.sel.toNat = 0 := rfl
  rw [State.inReadBuffer_iff, hsel]
  omega

theorem State.reset_reading (j : Fin 9) : State.reset.reading j = 0 := by
  simp [State.reading, State.reset]

/-- Settles O9: the fields are read off the reset state, and the consumer's domain there is the buffer `buf[1]`. -/
theorem resetValues : Obligations.ResetValues := by
  refine ⟨State.reset_reading, rfl, rfl, rfl, rfl, rfl, fun c => ⟨rfl, rfl⟩, ?disabled, ?answers⟩
  case disabled =>
    intro i hi
    simp only [List.mem_cons, List.not_mem_nil, or_false] at hi
    rcases hi with rfl | rfl | rfl <;> rfl
  case answers =>
    intro i hc hw hcheck hdec
    exact exec_next_of_consumer hc hw (fun a len h => State.reset_inReadBuffer (hcheck a len h))
      (fun a h => State.reset_inReadBuffer (hdec a h))

end Sys2Proof.Machine

/-! ## Proofs of the family `20_memory.md` -/

namespace Sys2Proof.Machine

/-! ### Which operation a command carries -/

/-- A decoded operation has the presented code (30_encoding.md R58). -/
theorem code_of_decode {c : Signals} {i : Instr} (h : decode c = .ok i) : i.code = c.cmd := by
  have hrows : ∀ row ∈ commandTable, (row.2 c).code = row.1 := by simp [commandTable, Instr.code]
  unfold decode at h
  split at h
  · next row hfind =>
    cases h
    exact (hrows row (List.mem_of_find?_eq_some hfind)).trans (by simpa using List.find?_some hfind)
  · cases h

/-- A command that keeps the buffers' roles carries neither SWAP nor PARSE. -/
theorem ne_swap_parse_of_keepsRoles {x : Ctx} {c : Signals} {i : Instr} (hk : keepsRoles (.issue x c) = true)
    (h : decode c = .ok i) : i ≠ .swap ∧ i ≠ .parse := by
  have hcode := code_of_decode h
  simp only [keepsRoles, Bool.and_eq_true, bne_iff_ne, ← hcode] at hk
  obtain ⟨hswap, hparse⟩ := hk
  exact ⟨fun e => hswap (by rw [e]; rfl), fun e => hparse (by rw [e]; rfl)⟩

/-! ### Stores miss the read buffer -/

/-- The two buffers have different indices (20_memory.md R30). -/
theorem ne_not_bufferIndex (k : BitVec 1) : k ≠ ~~~ k := by revert k; decide

/-- A byte is appended to the write-active buffer, or nowhere when that buffer is full (20_memory.md R31). -/
theorem State.append_load_of_readBuffer {s : State} (b : Byte) {c : Addr} (hc : bufferOf c = ~~~ s.sel) :
    (s.append b).load c = s.load c := by
  rw [State.append_load, if_neg]
  rintro ⟨hroom, rfl⟩
  rw [State.writeAddr, bufferOf_flat hroom] at hc
  exact ne_not_bufferIndex _ hc

theorem State.drain_load_of_readBuffer (bs : List Byte) {s : State} {c : Addr} (hc : bufferOf c = ~~~ s.sel) :
    (State.drain bs s).load c = s.load c := by
  induction bs generalizing s with
  | nil => rfl
  | cons b bs ih =>
    calc (State.drain bs (s.receive b bs)).load c
      _ = (s.receive b bs).load c := ih (by simpa using hc)
      _ = s.load c := by rw [State.receive_load, State.append_load_of_readBuffer b hc]

/-- Settles O47: a store of an operation is an append, and an append misses the read buffer. -/
theorem noStoreIntoReadBuffer : Obligations.NoStoreIntoReadBuffer := by
  intro i s t c h hc
  rcases exec_cases h with ⟨b, -, rfl⟩ | ⟨b, rest, -, -, -, rfl⟩ | ⟨-, -, -, rfl⟩ | ⟨-, -, rfl⟩ | ⟨-, rfl⟩ |
    ⟨-, rfl⟩ | ⟨-, ht⟩
  · exact State.append_load_of_readBuffer b hc
  · rw [State.receive_load, State.append_load_of_readBuffer b hc]
  · rfl
  · exact State.drain_load_of_readBuffer s.rxq hc
  · rfl
  · simp
  · rw [ht]; rfl

/-! ### Runs that keep the buffers' roles -/

/-- The same buffer is read in `t` as in `s`, and it holds the same bytes (40_double_buffer.md R43). -/
def State.SameReadBuffer (s t : State) : Prop :=
  t.sel = s.sel ∧ ∀ c, bufferOf c = ~~~ s.sel → t.load c = s.load c

theorem State.SameReadBuffer.trans {s t u : State} (hst : s.SameReadBuffer t) (htu : t.SameReadBuffer u) :
    s.SameReadBuffer u := by
  obtain ⟨hsel, hload⟩ := hst
  obtain ⟨hsel', hload'⟩ := htu
  exact ⟨hsel'.trans hsel, fun c hc => (hload' c (by rw [hsel]; exact hc)).trans (hload c hc)⟩

/-- Only SWAP and PARSE exchange the buffers. -/
theorem exec_sel {i : Instr} {s t : State} (hs : i ≠ .swap) (hp : i ≠ .parse) (h : exec i s = .next t) :
    t.sel = s.sel := by
  rcases exec_cases h with ⟨b, -, rfl⟩ | ⟨b, rest, -, -, -, rfl⟩ | ⟨-, -, -, rfl⟩ | ⟨-, -, rfl⟩ | ⟨hi, -⟩ |
    ⟨hi, -⟩ | ⟨-, ht⟩
  · exact s.append_sel b
  · exact s.receive_sel b rest
  · rfl
  · exact State.drain_sel s.rxq s
  · exact absurd hi hs
  · exact absurd hi hp
  · rw [ht]

theorem exec_sameReadBuffer {i : Instr} {s t : State} (hs : i ≠ .swap) (hp : i ≠ .parse)
    (h : exec i s = .next t) : s.SameReadBuffer t :=
  ⟨exec_sel hs hp h, fun c hc => noStoreIntoReadBuffer i s t c h hc⟩

/-- A step whose move keeps the roles, or the producer's own step, keeps the read buffer. -/
theorem step_sameReadBuffer {s t : State} (hk : ∀ m ∈ s.moves.head?, keepsRoles m = true)
    (h : step s = .next t) : s.SameReadBuffer t := by
  rcases step_cases h with ⟨-, -, i, hi, he⟩ | ⟨m, rest, hm, hcase⟩
  · refine exec_sameReadBuffer ?_ ?_ he <;> rcases hi with rfl | rfl | rfl <;> nofun
  · have hkm : keepsRoles m = true := hk m (by rw [hm]; rfl)
    rcases hcase with ⟨b, -, rfl⟩ | ⟨rfl, -⟩ | ⟨-, rfl⟩ | ⟨c, i, rfl, hd, he⟩
    · exact ⟨rfl, fun _ _ => rfl⟩
    · cases hkm
    · exact ⟨rfl, fun _ _ => rfl⟩
    · obtain ⟨hs, hp⟩ := ne_swap_parse_of_keepsRoles hkm hd
      exact exec_sameReadBuffer (s := { s with moves := rest }) hs hp he

/-- Settles O51, by induction on the run: each step keeps the selector and the bytes of the read buffer. -/
theorem readBufferStable : Obligations.ReadBufferStable := by
  intro n
  induction n with
  | zero =>
    intro s t _ h
    cases run_zero_eq_next.1 h
    exact ⟨rfl, fun _ _ => rfl⟩
  | succ n ih =>
    intro s t hk h
    obtain ⟨u, hstep, hrun⟩ := run_succ_eq_next.1 h
    have hfirst : ∀ m ∈ s.moves.head?, keepsRoles m = true := fun m hm =>
      hk m (List.mem_of_mem_head? (by rwa [List.head?_take, if_neg n.succ_ne_zero]))
    have hrest : ∀ m ∈ u.moves.take n, keepsRoles m = true := fun m hm =>
      hk m (List.mem_of_mem_tail (by rwa [List.tail_take_eq_take_tail, Nat.add_sub_cancel, ← step_moves hstep]))
    exact (step_sameReadBuffer hfirst hstep).trans (ih u t hrest hrun)

/-- Settles O53: after the SWAP the stored byte lies in the read buffer, which the run keeps. -/
theorem storesVisibleAcrossSwap : Obligations.StoresVisibleAcrossSwap := by
  intro n s t u v b hroom hstore hswap hk hrun
  cases hstore
  cases hswap
  have hload : ∀ c, bufferOf c = s.sel → v.load c = (s.append b).load c := by
    intro c hc
    obtain ⟨-, hkept⟩ := readBufferStable n _ v hk hrun
    exact hkept c (by simpa using hc)
  refine ⟨?_, fun c hc hne => ?_⟩
  · rw [hload _ (bufferOf_flat hroom), State.append_load, if_pos ⟨hroom, rfl⟩]
  · rw [hload c hc, State.append_load, if_neg fun h => hne h.2]

/-! ### Frames of the operations -/

/-- Two states agree outside the fields a consumer operation may write. -/
theorem State.eq_consumerFrame_iff {s t : State} :
    t = { s with sel := t.sel, wrPtr := t.wrPtr, x := t.x, out := t.out, draws := t.draws } ↔
      t.mem = s.mem ∧ t.ovr = s.ovr ∧ t.irqPend = s.irqPend ∧ t.rxq = s.rxq ∧ t.inService = s.inService ∧
        t.drainAtomic = s.drainAtomic ∧ t.resets = s.resets ∧ t.moves = s.moves := by
  cases t; simp

/-- Two states agree outside the fields a producer operation may write. -/
theorem State.eq_producerFrame_iff {s t : State} :
    t = { s with mem := t.mem, wrPtr := t.wrPtr, ovr := t.ovr, irqPend := t.irqPend, rxq := t.rxq,
                 inService := t.inService } ↔
      t.sel = s.sel ∧ t.x = s.x ∧ t.out = s.out ∧ t.drainAtomic = s.drainAtomic ∧ t.draws = s.draws ∧
        t.resets = s.resets ∧ t.moves = s.moves := by
  cases t; simp

/-- A consumer operation writes no buffer byte, no flag, no queue and no pending bit. -/
theorem exec_frame_of_consumer {i : Instr} {s t : State} (hc : i.ctx = .consumer) (h : exec i s = .next t) :
    t = { s with sel := t.sel, wrPtr := t.wrPtr, x := t.x, out := t.out, draws := t.draws } := by
  rcases exec_cases h with ⟨b, rfl, -⟩ | ⟨b, rest, rfl, -⟩ | ⟨rfl, -⟩ | ⟨rfl, -⟩ | ⟨-, rfl⟩ | ⟨-, rfl⟩ | ⟨-, ht⟩
  · cases hc
  · cases hc
  · cases hc
  · cases hc
  · rfl
  · exact State.eq_consumerFrame_iff.2 (by simp)
  · rw [ht]

/-- A producer operation writes neither the selector, nor a register, nor the consumer's latest answer. -/
theorem exec_frame_of_producer {i : Instr} {s t : State} (hc : i.ctx = .producer) (h : exec i s = .next t) :
    t = { s with mem := t.mem, wrPtr := t.wrPtr, ovr := t.ovr, irqPend := t.irqPend, rxq := t.rxq,
                 inService := t.inService } := by
  rcases exec_cases h with ⟨b, -, rfl⟩ | ⟨b, rest, -, -, -, rfl⟩ | ⟨-, -, -, rfl⟩ | ⟨-, -, rfl⟩ | ⟨rfl, -⟩ |
    ⟨rfl, -⟩ | ⟨⟨hcons, -⟩, -⟩
  · exact State.eq_producerFrame_iff.2 (by simp)
  · exact State.eq_producerFrame_iff.2 (by simp)
  · rfl
  · exact State.eq_producerFrame_iff.2 (by simp)
  · cases hc
  · cases hc
  · rw [hcons] at hc; cases hc

/-- An operation outside the converter draws no free value (log entry 5). -/
theorem exec_draws {i : Instr} {s t : State}
    (hi : (∃ a len, i = .check a len) ∨ (∃ a, i = .decf32 a) ∨ i = .swap ∨ i = .parse ∨ i = .print)
    (h : exec i s = .next t) : t.draws = s.draws := by
  rcases hi with ⟨a, len, rfl⟩ | ⟨a, rfl⟩ | rfl | rfl | rfl
  · obtain ⟨-, -, rfl⟩ := exec_check_cases h; rfl
  · obtain ⟨-, -, rfl⟩ := exec_decf32_cases h; rfl
  · cases h; rfl
  · rw [← Host.Outcome.next.inj h]; simp
  · cases h; rfl

/-- Settles O44: of what an operation can do, the consumer's part leaves the producer's fields alone. -/
theorem consumerOperationsFrame : Obligations.ConsumerOperationsFrame := by
  intro i s t hc h
  have hframe := exec_frame_of_consumer hc h
  refine ⟨fun c => by rw [hframe]; rfl, hframe, fun hs hp => ?_, fun hi => exec_draws hi h⟩
  rw [exec_frame_of_onlyAnswers ⟨hc, hs, hp⟩ h]
  exact ⟨rfl, rfl⟩

/-- An append reaches no byte but the one at the write address. -/
theorem State.append_load_of_ne {s : State} (b : Byte) {c : Addr} (hc : c ≠ flat s.sel s.wrPtr.toNat) :
    (s.append b).load c = s.load c := by
  rw [State.append_load, if_neg fun h => hc h.2]

/-- Settles O45: WRACT and RXB are an append, and RXACK only ends the service. -/
theorem producerOperationsFrame : Obligations.ProducerOperationsFrame := by
  intro i s t hc h
  refine ⟨exec_frame_of_producer hc h, ?append, ?wract, ?rxack⟩
  case append =>
    rintro (⟨b, rfl⟩ | rfl)
    · cases h
      exact ⟨fun c hne => State.append_load_of_ne b hne, s.append_irqPend b⟩
    · obtain ⟨b, rest, -, -, rfl⟩ := exec_rxb_cases h
      exact ⟨fun c hne => by rw [State.receive_load, State.append_load_of_ne b hne], s.receive_irqPend b rest⟩
  case wract =>
    rintro ⟨b, rfl⟩
    cases h
    exact ⟨s.append_rxq b, s.append_inService b⟩
  case rxack =>
    rintro rfl
    obtain ⟨-, -, rfl⟩ := exec_rxack_cases h
    exact ⟨fun _ => rfl, rfl, rfl, rfl⟩

/-! ### Loads read the read buffer only -/

/-- The bytes of an admitted range lie in the read buffer (30_encoding.md R61). -/
theorem State.bufferOf_add_of_admitted {s : State} {a : Addr} {n j : Nat} (hr : rangeInBuffer a n = true)
    (hb : s.inReadBuffer a = true) (hj : j < n) : bufferOf (a + BitVec.ofNat 9 j) = ~~~ s.sel := by
  have hn : offsetOf a + n ≤ 256 := of_decide_eq_true hr
  rw [bufferOf_add (by omega)]
  simpa [State.inReadBuffer] using hb

theorem exec_check_of_admitted {a len : BitVec 9} {s : State} (hr : rangeInBuffer a len.toNat = true)
    (hb : s.inReadBuffer a = true) :
    exec (.check a len) s = .next (s.answer (.valid (s.checkRange a len.toNat))) := by
  simp [exec, execCheck, hr, hb]

theorem exec_decf32_of_admitted {a : BitVec 9} {s : State} (hr : rangeInBuffer a 4 = true)
    (hb : s.inReadBuffer a = true) : exec (.decf32 a) s = .next (s.answer (.pattern (s.load32 a))) := by
  simp [exec, execDecf32, hr, hb]

theorem exec_tofixed_of_admitted {p : Pattern} {q : BitVec 8} {s : State} (hq : qAdmitted q = true) :
    exec (.tofixed p q) s = .next (s.convert p q.toNat) := by
  simp [exec, execTofixed, hq]

/-- Two states that agree on the four bytes of a field agree on the field. -/
theorem State.load32_congr {s t : State} (a : Addr)
    (h : ∀ j < 4, s.load (a + BitVec.ofNat 9 j) = t.load (a + BitVec.ofNat 9 j)) : s.load32 a = t.load32 a := by
  have h0 : s.load a = t.load a := by simpa using h 0 (by decide)
  have h1 : s.load (a + 1) = t.load (a + 1) := h 1 (by decide)
  have h2 : s.load (a + 2) = t.load (a + 2) := h 2 (by decide)
  have h3 : s.load (a + 3) = t.load (a + 3) := h 3 (by decide)
  rw [State.load32, State.load32, h0, h1, h2, h3]

/-- A conversion looks at no byte of the buffers. -/
theorem State.convert_setMem (s : State) (m : List Host.Cell) (p : Pattern) (q : Nat) :
    ({ s with mem := m } : State).convert p q = { s.convert p q with mem := m } := by
  unfold State.convert; split <;> rfl

/-- Settles O48: CHECK and DECF32 load bytes of the read buffer, and the other operations load none. -/
theorem writeActiveBytesUnseen : Obligations.WriteActiveBytesUnseen := by
  intro i s t m hc hp hm h
  cases i with
  | wract | rxb | rxack | rxirq => cases hc
  | parse => exact absurd rfl hp
  | swap | print => cases h; rfl
  | check a len =>
    obtain ⟨hr, hb, rfl⟩ := exec_check_cases h
    rw [exec_check_of_admitted (s := { s with mem := m }) hr hb,
      State.checkRange_congr a len.toNat fun j hj => hm _ (State.bufferOf_add_of_admitted hr hb hj)]
    rfl
  | decf32 a =>
    obtain ⟨hr, hb, rfl⟩ := exec_decf32_cases h
    rw [exec_decf32_of_admitted (s := { s with mem := m }) hr hb,
      State.load32_congr a fun j hj => hm _ (State.bufferOf_add_of_admitted hr hb hj)]
    rfl
  | tofixed p q =>
    obtain ⟨hq, rfl⟩ := exec_tofixed_cases h
    rw [exec_tofixed_of_admitted hq, State.convert_setMem]
  | fxaccx | fxaccy | fxaccz | fxgyrx | fxgyry | fxgyrz | fxroll | fxpitch | fxyaw =>
    cases h; exact congrArg _ (s.convert_setMem m _ _)

end Sys2Proof.Machine

/-! ## Proofs of the family `30_encoding.md` -/

namespace Sys2Proof

/-! ### What a command must present for an operation -/

/-- The signals carry the operation: its code, and each operand its format names (30_encoding.md R58). The other inputs
are free. -/
def Signals.Carries (c : Signals) (i : Instr) : Prop :=
  c.cmd = i.code ∧
    match i with
    | .wract b => c.b = b
    | .check a len => c.a = a ∧ c.len = len
    | .decf32 a => c.a = a
    | .tofixed p q => c.p = p ∧ c.q = q
    | .swap | .rxb | .rxack | .rxirq | .parse | .fxaccx | .fxaccy | .fxaccz | .fxgyrx | .fxgyry
    | .fxgyrz | .fxroll | .fxpitch | .fxyaw | .print => True

/-- The row of the table that has the operation's code rebuilds it from the inputs its format names. -/
theorem decode_of_carries {c : Signals} {i : Instr} (h : c.Carries i) : decode c = .ok i := by
  obtain ⟨hcmd, hop⟩ := h
  unfold decode
  rw [hcmd]
  cases i with
  | wract => cases hop; rfl
  | check => obtain ⟨rfl, rfl⟩ := hop; rfl
  | decf32 => cases hop; rfl
  | tofixed => obtain ⟨rfl, rfl⟩ := hop; rfl
  | swap | rxb | rxack | rxirq | parse | fxaccx | fxaccy | fxaccz | fxgyrx | fxgyry | fxgyrz | fxroll | fxpitch
  | fxyaw | print => rfl

/-- Decoding takes from the signals exactly what they carry. -/
theorem decode_eq_ok_iff {c : Signals} {i : Instr} : decode c = .ok i ↔ c.Carries i := by
  refine ⟨fun h => ?_, decode_of_carries⟩
  have hcmd : c.cmd = i.code := (Machine.code_of_decode h).symm
  refine ⟨hcmd, ?_⟩
  unfold decode at h
  rw [hcmd] at h
  cases i with
  | wract | decf32 => cases h; rfl
  | check | tofixed => cases h; exact ⟨rfl, rfl⟩
  | swap | rxb | rxack | rxirq | parse | fxaccx | fxaccy | fxaccz | fxgyrx | fxgyry | fxgyrz | fxroll | fxpitch
  | fxyaw | print => trivial

theorem encode_carries (i : Instr) : (encode i).Carries i := by
  cases i with
  | wract | decf32 => exact ⟨rfl, rfl⟩
  | check | tofixed => exact ⟨rfl, rfl, rfl⟩
  | swap | rxb | rxack | rxirq | parse | fxaccx | fxaccy | fxaccz | fxgyrx | fxgyry | fxgyrz | fxroll | fxpitch
  | fxyaw | print => exact ⟨rfl, trivial⟩

@[simp] theorem decode_encode (i : Instr) : decode (encode i) = .ok i := decode_of_carries (encode_carries i)

/-! ### The command word (log entry 2) -/

theorem Signals.ofWord_cmd {n w : Nat} {cmd : BitVec 8} (h : w % 2 ^ n % 2 ^ 8 = cmd.toNat) :
    (Signals.ofWord n w).cmd = cmd :=
  BitVec.eq_of_toNat_eq (by simpa [Signals.ofWord] using h)

theorem Signals.ofWord_b {n w : Nat} {b : Byte} (h : w % 2 ^ n / 2 ^ 8 % 2 ^ 8 = b.toNat) :
    (Signals.ofWord n w).b = b :=
  BitVec.eq_of_toNat_eq (by simpa [Signals.ofWord, Nat.shiftRight_eq_div_pow] using h)

theorem Signals.ofWord_a {n w : Nat} {a : BitVec 9} (h : w % 2 ^ n / 2 ^ 8 % 2 ^ 9 = a.toNat) :
    (Signals.ofWord n w).a = a :=
  BitVec.eq_of_toNat_eq (by simpa [Signals.ofWord, Nat.shiftRight_eq_div_pow] using h)

theorem Signals.ofWord_len {n w : Nat} {len : BitVec 9} (h : w % 2 ^ n / 2 ^ 17 % 2 ^ 9 = len.toNat) :
    (Signals.ofWord n w).len = len :=
  BitVec.eq_of_toNat_eq (by simpa [Signals.ofWord, Nat.shiftRight_eq_div_pow] using h)

theorem Signals.ofWord_p {n w : Nat} {p : Pattern} (h : w % 2 ^ n / 2 ^ 8 % 2 ^ 32 = p.toNat) :
    (Signals.ofWord n w).p = p :=
  BitVec.eq_of_toNat_eq (by simpa [Signals.ofWord, Nat.shiftRight_eq_div_pow] using h)

theorem Signals.ofWord_q {n w : Nat} {q : BitVec 8} (h : w % 2 ^ n / 2 ^ 40 % 2 ^ 8 = q.toNat) :
    (Signals.ofWord n w).q = q :=
  BitVec.eq_of_toNat_eq (by simpa [Signals.ofWord, Nat.shiftRight_eq_div_pow] using h)

/-- The fields of a command word do not overlap and none is cut off, so the word carries its operation. -/
theorem ofWord_word_carries (i : Instr) : (Signals.ofWord i.word.1 i.word.2).Carries i := by
  cases i with
  | wract b =>
    have := b.isLt
    refine ⟨Signals.ofWord_cmd ?_, Signals.ofWord_b ?_⟩ <;> simp only [Instr.word, Instr.code] <;> omega
  | check a len =>
    have := a.isLt
    have := len.isLt
    refine ⟨Signals.ofWord_cmd ?_, Signals.ofWord_a ?_, Signals.ofWord_len ?_⟩ <;>
      simp only [Instr.word, Instr.code] <;> omega
  | decf32 a =>
    have := a.isLt
    refine ⟨Signals.ofWord_cmd ?_, Signals.ofWord_a ?_⟩ <;> simp only [Instr.word, Instr.code] <;> omega
  | tofixed p q =>
    have := p.isLt
    have := q.isLt
    refine ⟨Signals.ofWord_cmd ?_, Signals.ofWord_p ?_, Signals.ofWord_q ?_⟩ <;>
      simp only [Instr.word, Instr.code] <;> omega
  | swap | rxb | rxack | rxirq | parse | fxaccx | fxaccy | fxaccz | fxgyrx | fxgyry | fxgyrz | fxroll | fxpitch
  | fxyaw | print => exact ⟨rfl, trivial⟩

theorem decode_ofWord_word (i : Instr) : decode (Signals.ofWord i.word.1 i.word.2) = .ok i :=
  decode_of_carries (ofWord_word_carries i)

theorem decodeTableWord_word (i : Instr) : decodeTableWord i.word.1 i.word.2 = some i := by
  simp only [decodeTableWord, decode_ofWord_word]

/-- Settles O2: the encoder's signals and the numbered word both carry the operation, and decoding takes what is
carried. -/
theorem decodeOfEncode : Obligations.DecodeOfEncode := fun i => ⟨decode_encode i, decodeTableWord_word i⟩

/-- Settles O1: the words are those of the listed operations, and no row of R58 has the code 0x21. -/
theorem tableWordsDecode : Obligations.TableWordsDecode :=
  ⟨decodeTableWord_word (.wract 0x75), decodeTableWord_word .swap, decodeTableWord_word .rxirq,
    decodeTableWord_word (.check 0x100 34), decodeTableWord_word (.decf32 0x106), decodeTableWord_word .parse,
    decodeTableWord_word (.tofixed 0x3F800000 11), decodeTableWord_word .fxyaw, decodeTableWord_word .print, rfl⟩

/-- Settles O3: a decoded operation is carried by the signals, so its code is the presented one, and its encoding holds
just the operands that were carried. -/
theorem decodedCarriesCode : Obligations.DecodedCarriesCode := by
  intro c i h
  obtain ⟨hcmd, hop⟩ := decode_eq_ok_iff.1 h
  rw [hcmd]
  cases i with
  | wract => cases hop; rfl
  | check => obtain ⟨rfl, rfl⟩ := hop; rfl
  | decf32 => cases hop; rfl
  | tofixed => obtain ⟨rfl, rfl⟩ := hop; rfl
  | swap | rxb | rxack | rxirq | parse | fxaccx | fxaccy | fxaccz | fxgyrx | fxgyry | fxgyrz | fxroll | fxpitch
  | fxyaw | print => rfl

/-- A code that no row of R58 lists is reserved (30_encoding.md R59). -/
theorem decode_of_unlisted {c : Signals} (h : ∀ row ∈ commandTable, row.1 ≠ c.cmd) :
    decode c = .error (.reserved c.cmd) := by
  have hnone : commandTable.find? (fun row => row.1 == c.cmd) = none :=
    List.find?_eq_none.2 fun row hrow => by simpa using h row hrow
  simp only [decode, hnone]

/-- R58 lists no code of the four ranges of R59. -/
theorem commandTable_not_reserved : ∀ row ∈ commandTable,
    ¬ (row.1.toNat = 0 ∨ (0x0A ≤ row.1.toNat ∧ row.1.toNat ≤ 0x0F) ∨ (0x19 ≤ row.1.toNat ∧ row.1.toNat ≤ 0x1F) ∨
      0x21 ≤ row.1.toNat) := by decide

end Sys2Proof

namespace Sys2Proof.Machine

/-! ### Presenting a command -/

theorem issue_of_reserved {by_ : Ctx} {c : Signals} {cmd : BitVec 8} (s : State)
    (h : decode c = .error (.reserved cmd)) : issue by_ c s = .refused (.reservedCode cmd) := by
  simp only [issue, h]

theorem issue_of_wrongContext {by_ : Ctx} {c : Signals} {i : Instr} (s : State) (h : decode c = .ok i)
    (hc : i.ctx ≠ by_) : issue by_ c s = .refused .wrongContext := by
  simp only [issue, h, if_pos hc]

/-- A command of its own context executes, unless it is the consumer's and falls inside an atomic drain
(log entry 7). -/
theorem issue_of_decode {c : Signals} {i : Instr} {s : State} (h : decode c = .ok i)
    (hd : i.ctx = .consumer → s.inService = true → s.drainAtomic = false) : issue i.ctx c s = exec i s := by
  have hb : ¬ (i.ctx = .consumer ∧ s.consumerBlocked = true) := by
    rintro ⟨hc, hb⟩
    obtain ⟨hs, ha⟩ := Bool.and_eq_true_iff.1 hb
    rw [hd hc hs] at ha
    cases ha
  simp only [issue, h, ne_eq, not_true_eq_false, if_false, if_neg hb]

/-- Settles O4: no row of R58 has a reserved code, and a command is admitted in its operation's context only. -/
theorem reservedAndWrongContextRefused : Obligations.ReservedAndWrongContextRefused := by
  refine ⟨fun by_ c rest s hm hcode => ?_, fun by_ i c rest s hm hd hc => ?_⟩
  · rw [step_cons hm]
    exact issue_of_reserved _ (decode_of_unlisted fun row hrow e => commandTable_not_reserved row hrow (e ▸ hcode))
  · rw [step_cons hm]
    exact issue_of_wrongContext _ hd hc

/-- Settles O5: the first listed move is taken, and an admitted command executes. -/
theorem stepRunsDecoded : Obligations.StepRunsDecoded := by
  rintro by_ c i rest s hm h rfl hd
  rw [step_cons hm]
  exact issue_of_decode h hd

/-- The word of an operation is presented by the operation's own context. -/
theorem presentWord_word (i : Instr) (moves : List Move) :
    presentWord i.word.1 i.word.2 moves = .issue i.ctx (Signals.ofWord i.word.1 i.word.2) :: moves := by
  simp only [presentWord, decode_ofWord_word]

/-- Settles O6: the presented word is the first listed move, it decodes to its operation, and using it up leaves the
moves that were listed before. -/
theorem presentedWordRuns : Obligations.PresentedWordRuns := fun i s hd =>
  stepRunsDecoded i.ctx _ i s.moves (s.withFetchWord i.word.1 i.word.2) (presentWord_word i s.moves)
    (decode_ofWord_word i) rfl hd

/-! ### RXIRQ and its steps -/

/-- A listed producer command is never kept out of a drain. -/
theorem step_command_of_producer {i : Instr} {s : State} {rest : List Move} (hc : i.ctx = .producer)
    (hm : s.moves = command i :: rest) : step s = exec i { s with moves := rest } :=
  stepRunsDecoded i.ctx _ i rest s hm (decode_encode i) rfl fun h => by rw [hc] at h; cases h

theorem exec_rxb_of_enabled {s : State} {b : Byte} {rest : List Byte} (hp : s.irqPend = true) (hq : s.rxq = b :: rest) :
    exec .rxb s = .next (s.receive b rest) := by
  simp only [exec, execRxb, hp, hq]

theorem exec_rxack_of_enabled {s : State} (hp : s.irqPend = true) (hq : s.rxq = []) :
    exec .rxack s = .next s.leaveService := by
  simp only [exec, execRxack, hp, hq]

theorem exec_rxirq_of_pending {s : State} (hp : s.irqPend = true) :
    exec .rxirq s = .next (State.drain s.rxq s).leaveService := by
  simp only [exec, execRxirq, hp, if_true]

/-- RXIRQ on an empty queue is RXACK alone (41_frame_receiver.md R83). -/
theorem exec_rxirq_of_empty {s : State} (hp : s.irqPend = true) (hq : s.rxq = []) :
    exec .rxirq s = exec .rxack s := by
  rw [exec_rxirq_of_pending hp, exec_rxack_of_enabled hp hq, hq]; rfl

/-- RXIRQ on a non-empty queue is the RXB step of its head, then RXIRQ (41_frame_receiver.md R83). -/
theorem exec_rxirq_of_cons {s : State} {b : Byte} {rest : List Byte} (hp : s.irqPend = true) (hq : s.rxq = b :: rest) :
    exec .rxirq s = exec .rxirq (s.receive b rest) := by
  rw [exec_rxirq_of_pending hp, exec_rxirq_of_pending ((s.receive_irqPend b rest).trans hp), State.receive_rxq, hq]; rfl

/-- The RXB step neither reads nor writes the list of moves. -/
theorem State.receive_setMoves (s : State) (ms : List Move) (b : Byte) (rest : List Byte) :
    { s.receive b rest with moves := ms } = ({ s with moves := ms } : State).receive b rest := by
  simp only [State.receive, State.append]
  split <;> rfl

/-- Listed RXB steps for the queue `bs` and an RXACK are the whole service (30_encoding.md R64), by induction on the queue:
the empty queue leaves RXACK, and each RXB is the first step of the drain. -/
theorem run_rxb_rxack {bs : List Byte} {s : State} {rest : List Move} (hp : s.irqPend = true) (hq : s.rxq = bs)
    (hm : s.moves = List.replicate bs.length (command .rxb) ++ command .rxack :: rest) :
    Host.Core.run core (bs.length + 1) s = exec .rxirq { s with moves := rest } := by
  induction bs generalizing s with
  | nil =>
    have hstep : step s = exec .rxack { s with moves := rest } := step_command_of_producer rfl hm
    have hack := exec_rxack_of_enabled (s := { s with moves := rest }) hp hq
    have hdrain := exec_rxirq_of_empty (s := { s with moves := rest }) hp hq
    exact (run_succ_of_step (hstep.trans hack)).trans (hdrain.trans hack).symm
  | cons b bs ih =>
    have hstep := (step_command_of_producer rfl hm).trans (exec_rxb_of_enabled hp hq)
    have hrun := ih (s := ({ s with moves := List.replicate bs.length (command .rxb) ++ command .rxack :: rest } :
      State).receive b bs) (by simp [hp]) (by simp) (by simp)
    rw [State.receive_setMoves] at hrun
    have hdrain := exec_rxirq_of_cons (s := { s with moves := rest }) hp hq
    exact (run_succ_of_step hstep).trans (hrun.trans hdrain.symm)

/-- Settles O22: the listed steps are those of the state's own queue. -/
theorem rxirqEqualsItsSteps : Obligations.RxirqEqualsItsSteps := fun _ _ hp hm => run_rxb_rxack hp rfl hm

/-! ### The operand domains -/

theorem State.not_inReadBuffer_iff {s : State} {a : Addr} : ¬ s.inReadBuffer a = true ↔ a.toNat / 256 = s.sel.toNat := by
  have := a.isLt
  have := s.sel.isLt
  rw [State.inReadBuffer_iff]
  omega

theorem exec_check_refused_iff {a len : BitVec 9} {s : State} :
    (∃ r, exec (.check a len) s = .refused r) ↔ ¬ rangeInBuffer a len.toNat = true ∨ ¬ s.inReadBuffer a = true := by
  cases hr : rangeInBuffer a len.toNat <;> cases hb : s.inReadBuffer a <;> simp [exec, execCheck, hr, hb]

theorem exec_decf32_refused_iff {a : BitVec 9} {s : State} :
    (∃ r, exec (.decf32 a) s = .refused r) ↔ ¬ rangeInBuffer a 4 = true ∨ ¬ s.inReadBuffer a = true := by
  cases hr : rangeInBuffer a 4 <;> cases hb : s.inReadBuffer a <;> simp [exec, execDecf32, hr, hb]

theorem exec_tofixed_refused_iff {p : Pattern} {q : BitVec 8} {s : State} :
    (∃ r, exec (.tofixed p q) s = .refused r) ↔ ¬ qAdmitted q = true := by
  cases hq : qAdmitted q <;> simp [exec, execTofixed, hq]

/-- A range of fewer than two bytes has no trailer (42_checksum.md R92). -/
theorem State.checkRange_of_short {s : State} {a : Addr} {n : Nat} (h : n < 2) : s.checkRange a n = false := by
  simp [State.checkRange, rangeValid, h]

/-- Settles O42: each refusal is one of R61's conditions on the operands, put into arithmetic. -/
theorem operandDomainExact : Obligations.OperandDomainExact := by
  refine ⟨fun s a len => ?check, fun s a => ?decf32, fun s p q => ?tofixed, fun s a len hlen ha => ?short,
    fun s i hi => ?never⟩
  case check =>
    have := a.isLt
    rw [exec_check_refused_iff, State.not_inReadBuffer_iff, rangeInBuffer_iff]
    omega
  case decf32 =>
    rw [exec_decf32_refused_iff, State.not_inReadBuffer_iff, rangeInBuffer_iff]
    omega
  case tofixed => rw [exec_tofixed_refused_iff, qAdmitted_iff, not_le]
  case short =>
    have hr : rangeInBuffer a len.toNat = true := rangeInBuffer_iff.2 (by omega)
    have hb : s.inReadBuffer a = true := by_contra fun h => ha (State.not_inReadBuffer_iff.1 h)
    exact ⟨_, exec_check_of_admitted hr hb, by rw [State.answer_out, State.checkRange_of_short hlen]⟩
  case never =>
    simp only [List.mem_cons, List.not_mem_nil, or_false] at hi
    rcases hi with rfl | rfl | rfl | rfl | rfl | rfl | rfl | rfl | rfl | rfl <;> exact ⟨_, rfl⟩

end Sys2Proof.Machine

/-! ## Proofs of the family `40_double_buffer.md` -/

namespace Sys2Proof.Machine

/-! ### WRACT -/

/-- An append writes the bytes, the write index and the overrun flag, and no other field. -/
theorem State.append_frame (s : State) (b : Byte) :
    s.append b = { s with mem := (s.append b).mem, wrPtr := (s.append b).wrPtr, ovr := (s.append b).ovr } := by
  unfold State.append; split <;> rfl

/-- Settles O13: WRACT is an append, which stores at the write address or, with the buffer full, sets the flag only. -/
theorem wractStoresOrFlags : Obligations.WractStoresOrFlags := by
  refine fun s b => ⟨decode_of_carries ⟨rfl, rfl⟩, rfl, s.append b, rfl, ?_, s.append_frame b⟩
  split_ifs with hroom
  · refine ⟨?_, fun c hne => State.append_load_of_ne b hne, ?_, ?_⟩
    · rw [State.append_load, if_pos ⟨hroom, rfl⟩]
    · rw [State.append_wrPtr_toNat, if_pos hroom]
    · rw [State.append_ovr, if_pos hroom]
  · rw [State.append_of_full b hroom]
    exact ⟨fun _ => rfl, rfl, rfl⟩

/-! ### SWAP -/

/-- Settles O14: the buffer handed over is the read buffer of the next state, which role-keeping runs leave alone. -/
theorem swapHandsOver : Obligations.SwapHandsOver := by
  refine ⟨decode_of_carries ⟨rfl, trivial⟩, rfl, fun s => ⟨s.handOver.answer (.buffer s.sel), rfl, rfl, ?flip, rfl,
    fun _ => rfl, rfl, fun n u hk hrun c hc => ?kept⟩⟩
  case flip => rw [State.answer_sel, State.handOver_sel, BitVec.toNat_not]
  case kept =>
    obtain ⟨-, hload⟩ := readBufferStable n _ u hk hrun
    exact hload c (by simpa using hc)

/-- A listed SWAP hands the buffers over, unless it falls inside an atomic drain (log entry 7). -/
theorem step_command_swap {s : State} {rest : List Move} (hd : s.inService = true → s.drainAtomic = false)
    (hm : s.moves = command .swap :: rest) :
    step s = .next (({ s with moves := rest } : State).handOver.answer (.buffer s.sel)) :=
  stepRunsDecoded .consumer _ .swap rest s hm (decode_encode .swap) rfl fun _ => hd

/-- SWAPs listed back to back answer the two indices in turn, from the present selector on (40_double_buffer.md R72). -/
theorem run_swaps (n : Nat) {s : State} {rest : List Move} (hd : s.inService = true → s.drainAtomic = false)
    (hm : s.moves = List.replicate (n + 1) (command .swap) ++ rest) :
    ∃ t, Host.Core.run core (n + 1) s = .next t ∧ t.out = .buffer (s.sel + BitVec.ofNat 1 n) ∧ t.moves = rest ∧
      t.wrPtr = 0 := by
  induction n generalizing s with
  | zero => exact ⟨_, run_succ_of_step (step_command_swap hd hm), by simp, rfl, rfl⟩
  | succ n ih =>
    have hflip : ~~~ s.sel + BitVec.ofNat 1 n = s.sel + BitVec.ofNat 1 (n + 1) := by
      have hnot : ∀ k : BitVec 1, ~~~ k = k + 1 := by decide
      rw [hnot, BitVec.add_assoc, Nat.add_comm n, BitVec.ofNat_add]
      rfl
    have hstep := step_command_swap hd hm
    obtain ⟨t, hrun, hout, hmoves, hptr⟩ := ih (s := ({ s with moves := _ } : State).handOver.answer _) hd rfl
    exact ⟨t, (run_succ_of_step hstep).trans hrun, hout.trans (congrArg _ hflip), hmoves, hptr⟩

/-- Settles O15: after reset the selector is 0, and the SWAPs answer from it on in turn. -/
theorem swapsAlternate : Obligations.SwapsAlternate := by
  intro n rest
  have hindex : State.reset.sel + BitVec.ofNat 1 n = BitVec.ofNat 1 (n % 2) := by
    have hsel : State.reset.sel = 0#1 := rfl
    have hmod : BitVec.ofNat 1 (n % 2) = BitVec.ofNat 1 n := BitVec.eq_of_toNat_eq (Nat.mod_mod n 2)
    rw [hsel, hmod, BitVec.zero_add]
  rw [← hindex]
  exact run_swaps n nofun rfl

/-! ### A capture window -/

/-- The effect of one WRACT for each byte, in order (40_double_buffer.md R74). -/
def State.appendAll : List Byte → State → State
  | [], s => s
  | b :: bs, s => State.appendAll bs (s.append b)

@[simp] theorem State.appendAll_sel (bs : List Byte) (s : State) : (State.appendAll bs s).sel = s.sel := by
  induction bs generalizing s with
  | nil => rfl
  | cons b bs ih => simp [State.appendAll, ih]
@[simp] theorem State.appendAll_inService (bs : List Byte) (s : State) :
    (State.appendAll bs s).inService = s.inService := by
  induction bs generalizing s with
  | nil => rfl
  | cons b bs ih => simp [State.appendAll, ih]
@[simp] theorem State.appendAll_drainAtomic (bs : List Byte) (s : State) :
    (State.appendAll bs s).drainAtomic = s.drainAtomic := by
  induction bs generalizing s with
  | nil => rfl
  | cons b bs ih => simp [State.appendAll, ih]
@[simp] theorem State.appendAll_moves (bs : List Byte) (s : State) : (State.appendAll bs s).moves = s.moves := by
  induction bs generalizing s with
  | nil => rfl
  | cons b bs ih => simp [State.appendAll, ih]

/-- Outside the offsets from the write index on that the appends fill, every byte stays. -/
theorem State.appendAll_load_of_outside {bs : List Byte} {s : State} {c : Addr}
    (hc : bufferOf c = s.sel → offsetOf c < s.wrPtr.toNat ∨ min (s.wrPtr.toNat + bs.length) 256 ≤ offsetOf c) :
    (State.appendAll bs s).load c = s.load c := by
  induction bs generalizing s with
  | nil => rfl
  | cons b bs ih =>
    rw [List.length_cons] at hc
    have hmiss : ¬ (s.wrPtr.toNat < 256 ∧ c = s.writeAddr) := by
      rintro ⟨hroom, rfl⟩
      have := hc (bufferOf_flat hroom)
      rw [State.writeAddr, offsetOf_flat hroom] at this
      omega
    have hrest : bufferOf c = (s.append b).sel →
        offsetOf c < (s.append b).wrPtr.toNat ∨ min ((s.append b).wrPtr.toNat + bs.length) 256 ≤ offsetOf c := by
      intro hk
      have := hc (hk.trans (s.append_sel b))
      rw [State.append_wrPtr_toNat]
      split <;> omega
    rw [State.appendAll, ih hrest, State.append_load, if_neg hmiss]

/-- The byte appended `j`-th lies `j` bytes after the write index, where the buffer has room for it. -/
theorem State.appendAll_load_stored {bs : List Byte} {s : State} {j : Nat} (hj : j < bs.length)
    (hroom : s.wrPtr.toNat + j < 256) : (State.appendAll bs s).load (flat s.sel (s.wrPtr.toNat + j)) = bs[j] := by
  induction bs generalizing s j with
  | nil => cases hj
  | cons b bs ih =>
    have hr : s.wrPtr.toNat < 256 := by omega
    have hptr : (s.append b).wrPtr.toNat = s.wrPtr.toNat + 1 := by rw [State.append_wrPtr_toNat, if_pos hr]
    cases j with
    | zero =>
      have hkept : (State.appendAll bs (s.append b)).load s.writeAddr = (s.append b).load s.writeAddr :=
        State.appendAll_load_of_outside fun _ => .inl (by rw [State.writeAddr, offsetOf_flat hr, hptr]; omega)
      exact hkept.trans (by rw [State.append_load, if_pos ⟨hr, rfl⟩]; rfl)
    | succ j =>
      have hrest := ih (s := s.append b) (j := j) (Nat.lt_of_succ_lt_succ hj) (by omega)
      rwa [State.append_sel, hptr, Nat.add_assoc, Nat.add_comm 1 j] at hrest

/-- The flag is set when the appends go past the end of the buffer. -/
theorem State.appendAll_ovr {bs : List Byte} {s : State} (hw : s.wrPtr.toNat ≤ 256) :
    (State.appendAll bs s).ovr = (s.ovr || decide (256 < s.wrPtr.toNat + bs.length)) := by
  induction bs generalizing s with
  | nil => simp [State.appendAll, hw]
  | cons b bs ih =>
    rw [State.appendAll, ih (State.append_wrPtr_le b hw), State.append_ovr, State.append_wrPtr_toNat, List.length_cons]
    split_ifs with hroom
    · rw [Nat.add_assoc, Nat.add_comm 1]
    · have hpast : 256 < s.wrPtr.toNat + (bs.length + 1) := by omega
      simp [hpast]

/-- An append neither reads nor writes the list of moves. -/
theorem State.append_setMoves (s : State) (ms : List Move) (b : Byte) :
    { s.append b with moves := ms } = ({ s with moves := ms } : State).append b := by
  simp only [State.append]
  split <;> rfl

/-- Listed WRACTs append their bytes, and the run goes on with the moves after them. -/
theorem run_wracts {bs : List Byte} {s : State} {ms : List Move} (n : Nat)
    (hm : s.moves = bs.map (fun b => command (.wract b)) ++ ms) :
    Host.Core.run core (bs.length + n) s = Host.Core.run core n (State.appendAll bs { s with moves := ms }) := by
  induction bs generalizing s with
  | nil =>
    have hs : { s with moves := ms } = s := by rw [← show s.moves = ms from hm]
    rw [hs, List.length_nil, Nat.zero_add]
    rfl
  | cons b bs ih =>
    have hstep : step s = .next (({ s with moves := bs.map (fun b => command (.wract b)) ++ ms } : State).append b) :=
      step_command_of_producer rfl hm
    rw [List.length_cons, Nat.add_right_comm, run_succ_of_step hstep, ih (by simp), State.append_setMoves]
    rfl

/-- Settles O16: the window's WRACTs append its bytes from offset 0 on, and the SWAP that closes it moves no byte. -/
theorem captureWindowHoldsItsBytes : Obligations.CaptureWindowHoldsItsBytes := by
  intro s bs rest hw hd hm
  have hptr : s.wrPtr.toNat = 0 := by rw [hw]; rfl
  have hrun := run_wracts 1 hm
  have hswap := step_command_swap (s := State.appendAll bs { s with moves := command .swap :: rest }) (rest := rest)
    (by simpa using hd) (by simp)
  refine ⟨_, hrun.trans (run_succ_of_step hswap), by simp, rfl, fun j hj hroom => ?stored, fun c hc => ?stale, ?ovr,
    rfl, by simp⟩
  case stored =>
    have hstored := State.appendAll_load_stored (s := { s with moves := command .swap :: rest }) hj
      (by simpa [hptr] using hroom)
    rw [hptr, Nat.zero_add] at hstored
    exact hstored
  case stale =>
    exact State.appendAll_load_of_outside (s := { s with moves := command .swap :: rest }) fun hk =>
      .inr (by simpa [hptr] using hc hk)
  case ovr =>
    simpa [hptr] using State.appendAll_ovr (bs := bs) (s := { s with moves := command .swap :: rest }) (by simp [hptr])

end Sys2Proof.Machine

/-! ## Proofs of the family `41_frame_receiver.md` -/

namespace Sys2Proof.Machine

/-! ### A whole burst: the drain as appends -/

/-- The write index counts the appended bytes as far as the buffer reaches. -/
theorem State.appendAll_wrPtr_toNat {bs : List Byte} {s : State} (hw : s.wrPtr.toNat ≤ 256) :
    (State.appendAll bs s).wrPtr.toNat = min (s.wrPtr.toNat + bs.length) 256 := by
  induction bs generalizing s with
  | nil => simpa [State.appendAll] using hw
  | cons b bs ih =>
    rw [State.appendAll, ih (State.append_wrPtr_le b hw), State.append_wrPtr_toNat, List.length_cons]
    split <;> omega

/-- An append neither reads nor writes the queue and the mark of the service. -/
theorem State.append_setReceiver (s : State) (q : List Byte) (v : Bool) (b : Byte) :
    ({ s with rxq := q, inService := v } : State).append b = { s.append b with rxq := q, inService := v } := by
  simp only [State.append]
  split <;> rfl

theorem State.appendAll_setReceiver (bs : List Byte) (s : State) (q : List Byte) (v : Bool) :
    State.appendAll bs { s with rxq := q, inService := v } = { State.appendAll bs s with rxq := q, inService := v } := by
  induction bs generalizing s with
  | nil => rfl
  | cons b bs ih => rw [State.appendAll, State.append_setReceiver, ih]; rfl

/-- The RXB step is WRACT's work on the head, the queue's tail, and the mark of the service (41_frame_receiver.md R81). -/
theorem State.receive_eq_append (s : State) (b : Byte) (rest : List Byte) :
    s.receive b rest = { s.append b with rxq := rest, inService := true } := by
  simp only [State.receive, State.append, State.enterService]
  split <;> rfl

/-- On the buffers, the write index and the flag, the drain is the appends of its bytes. -/
theorem State.drain_eq_appendAll (bs : List Byte) (s : State) :
    State.drain bs s =
      { State.appendAll bs s with rxq := (State.drain bs s).rxq, inService := (State.drain bs s).inService } := by
  induction bs generalizing s with
  | nil => rfl
  | cons b bs ih =>
    rw [State.drain, ih, State.receive_eq_append, State.appendAll_setReceiver]
    rfl

theorem State.drain_load (bs : List Byte) (s : State) (c : Addr) :
    (State.drain bs s).load c = (State.appendAll bs s).load c := by
  rw [State.drain_eq_appendAll]; rfl

theorem State.drain_wrPtr_toNat {bs : List Byte} {s : State} (hw : s.wrPtr.toNat ≤ 256) :
    (State.drain bs s).wrPtr.toNat = min (s.wrPtr.toNat + bs.length) 256 := by
  rw [State.drain_eq_appendAll]; exact State.appendAll_wrPtr_toNat hw

theorem State.drain_ovr {bs : List Byte} {s : State} (hw : s.wrPtr.toNat ≤ 256) :
    (State.drain bs s).ovr = (s.ovr || decide (256 < s.wrPtr.toNat + bs.length)) := by
  rw [State.drain_eq_appendAll]; exact State.appendAll_ovr hw

/-- The byte drained `j`-th lies `j` bytes after the write index, where the buffer has room for it. -/
theorem State.drain_load_stored {bs : List Byte} {s : State} {j : Nat} (hj : j < bs.length)
    (hroom : s.wrPtr.toNat + j < 256) : (State.drain bs s).load (flat s.sel (s.wrPtr.toNat + j)) = bs[j] := by
  rw [State.drain_load, State.appendAll_load_stored hj hroom]

/-- Outside the offsets of the active buffer that the burst can reach, every byte stays. -/
theorem State.drain_load_of_outside {bs : List Byte} {s : State} {c : Addr}
    (hc : bufferOf c = s.sel → offsetOf c < s.wrPtr.toNat ∨ s.wrPtr.toNat + bs.length ≤ offsetOf c) :
    (State.drain bs s).load c = s.load c := by
  rw [State.drain_load]
  exact State.appendAll_load_of_outside fun hk => (hc hk).imp_right (min_le_left _ _).trans

/-! ### RXIRQ -/

theorem exec_rxirq_of_not_pending {s : State} (hp : s.irqPend = false) : exec .rxirq s = .fault .notEnabled := by
  simp [exec, execRxirq, hp]

/-- Settles O21: RXIRQ is the drain of the whole queue, then the acknowledgement, which changes no byte. -/
theorem rxirqDrainsQueue : Obligations.RxirqDrainsQueue := by
  refine ⟨fun s hp hw => ⟨(State.drain s.rxq s).leaveService, exec_rxirq_of_pending hp, ⟨State.drain_rxq s, rfl⟩,
    fun _ hj hroom => State.drain_load_stored hj hroom, fun _ hc => State.drain_load_of_outside hc,
    State.drain_wrPtr_toNat hw, State.drain_ovr hw, ?frame⟩, fun _ => exec_rxirq_of_not_pending⟩
  case frame =>
    have hframe := exec_frame_of_producer rfl (exec_rxirq_of_pending hp)
    rwa [State.leaveService_rxq, State.drain_rxq] at hframe

/-! ### RXB and RXACK -/

theorem exec_rxb_of_not_enabled {s : State} (h : s.irqPend = false ∨ s.rxq = []) :
    exec .rxb s = .fault .notEnabled := by
  simp only [exec, execRxb]
  split
  · next hp hq => simp [hp, hq] at h
  · rfl

theorem exec_rxack_of_not_enabled {s : State} (h : s.irqPend = false ∨ s.rxq ≠ []) :
    exec .rxack s = .fault .notEnabled := by
  simp only [exec, execRxack]
  split
  · next hp hq => simp [hp, hq] at h
  · rfl

/-- Settles O18: the RXB step is an append on the rest of the queue, apart from the mark of the service. -/
theorem rxbMovesHead : Obligations.RxbMovesHead := by
  refine ⟨decode_encode .rxb, rfl, fun s b rest hp hq => ?_, fun s => exec_rxb_of_not_enabled⟩
  exact ⟨s.receive b rest, ({ s with rxq := rest } : State).append b, exec_rxb_of_enabled hp hq, rfl, rfl⟩

/-- A listed producer command is executed in whatever state it is taken. -/
theorem takeMove_command_of_producer {i : Instr} (hc : i.ctx = .producer) (s : State) :
    takeMove (command i) s = exec i s :=
  issue_of_decode (decode_encode i) fun h => by rw [hc] at h; cases h

/-- While the condition is pending, an empty queue enables RXACK only and a non-empty one RXB only. -/
theorem rxb_rxack_exclusive {s : State} (hp : s.irqPend = true) :
    (exec .rxb s = .fault .notEnabled ∧ exec .rxack s = .next s.leaveService) ∨
    ∃ t, exec .rxb s = .next t ∧ exec .rxack s = .fault .notEnabled := by
  cases hq : s.rxq with
  | nil => exact .inl ⟨exec_rxb_of_not_enabled (.inr hq), exec_rxack_of_enabled hp hq⟩
  | cons b rest => exact .inr ⟨_, exec_rxb_of_enabled hp hq, exec_rxack_of_not_enabled (.inr (by simp [hq]))⟩

/-- Settles O19: the queue decides which of RXB and RXACK is enabled, and RXACK is enabled with nothing left to drain. -/
theorem rxackAcknowledges : Obligations.RxackAcknowledges := by
  refine ⟨decode_encode .rxack, rfl, fun s hp hq => ⟨s.leaveService, exec_rxack_of_enabled hp hq, rfl⟩,
    fun s => exec_rxack_of_not_enabled, fun s hp => ?exclusive, fun s t m hs hm h => ?kept⟩
  case exclusive =>
    obtain ⟨hb, ha⟩ | ⟨t, hb, ha⟩ := rxb_rxack_exclusive hp <;> simp [hb, ha]
  case kept =>
    rcases hm with ⟨b, rfl⟩ | rfl | rfl
    · cases h; exact fun _ => rfl
    · rw [takeMove_command_of_producer rfl] at h
      obtain ⟨b, rest, hp, -, rfl⟩ := exec_rxb_cases h
      exact fun _ => (s.receive_irqPend b rest).trans hp
    · rw [takeMove_command_of_producer rfl] at h
      obtain ⟨-, hq, rfl⟩ := exec_rxack_cases h
      exact fun hne => absurd hq hne

/-! ### ENVPUSH -/

/-- No operation makes the queue longer or sets `irq_pend`. -/
theorem exec_raises_nothing {i : Instr} {s t : State} (h : exec i s = .next t) :
    ¬ (s.rxq.length < t.rxq.length ∨ (s.irqPend = false ∧ t.irqPend = true)) := by
  rcases exec_cases h with ⟨b, -, rfl⟩ | ⟨b, rest, -, -, hq, rfl⟩ | ⟨-, -, -, rfl⟩ | ⟨-, -, rfl⟩ | ⟨-, rfl⟩ |
    ⟨-, rfl⟩ | ⟨-, ht⟩
  · simp
  · simp [hq]
  · simp
  · simp [State.drain_rxq]
  · simp
  · simp
  · rw [ht]; simp

/-- Settles O11: the other environment events and every operation raise neither the queue's length nor `irq_pend`. -/
theorem envPushAppendsAndAlone : Obligations.EnvPushAppendsAndAlone := by
  refine ⟨fun s b rest hm => step_cons hm, fun s t h hraised => ?_⟩
  rcases step_cases h with ⟨-, -, i, -, he⟩ | ⟨m, rest, hm, ⟨b, rfl, -⟩ | ⟨-, rfl⟩ | ⟨-, rfl⟩ | ⟨c, i, -, -, he⟩⟩
  · exact absurd hraised (exec_raises_nothing he)
  · exact ⟨b, by rw [hm]; rfl⟩
  · simp at hraised
  · simp at hraised
  · exact absurd hraised (exec_raises_nothing (s := { s with moves := rest }) he)

/-! ### DRAIN_ATOMIC (log entry 7) -/

/-- A consumer command that would fall inside an atomic drain is stopped. -/
theorem issue_of_blocked {c : Signals} {i : Instr} {s : State} (h : decode c = .ok i) (hc : i.ctx = .consumer)
    (hb : s.consumerBlocked = true) : issue i.ctx c s = .fault .drainInProgress := by
  simp [issue, h, hc, hb]

/-- Settles O7: inside a service the argument alone decides whether the consumer's command is blocked. -/
theorem consumerKeptOutOfAtomicDrain : Obligations.ConsumerKeptOutOfAtomicDrain := by
  intro i rest s hc hm hs
  split_ifs with ha
  · rw [step_cons hm]
    exact issue_of_blocked (decode_encode i) hc (by simp [State.consumerBlocked, hs, ha])
  · exact stepRunsDecoded i.ctx _ i rest s hm (decode_encode i) rfl fun _ _ => by simpa using ha

/-! ### A drain with other agents' steps inside it -/

/-- The RXB step reads neither the queue, whose tail it is given, nor the list of moves. -/
theorem State.receive_setQueue (s : State) (q rest rest' : List Byte) (ms : List Move) (b : Byte) :
    ({ s with rxq := q, moves := ms } : State).receive b rest =
      { s.receive b rest' with rxq := rest, moves := ms } := by
  simp only [State.receive, State.append]
  split <;> rfl

/-- The drain's work on the other fields does not depend on the queue or on the list of moves. -/
theorem State.drain_setQueue (bs : List Byte) (s : State) (q q' : List Byte) (ms ms' : List Move) :
    { State.drain bs { s with rxq := q, moves := ms } with rxq := q', moves := ms' } =
      { State.drain bs s with rxq := q', moves := ms' } := by
  induction bs generalizing s q with
  | nil => rfl
  | cons b bs ih =>
    rw [State.drain, State.receive_setQueue s q bs bs]
    exact ih (s.receive b bs) bs

/-- Listed RXB steps for the first bytes of the queue drain them, and the run goes on with the moves after them. -/
theorem run_rxbs {pre post : List Byte} {s : State} {ms : List Move} (n : Nat) (hp : s.irqPend = true)
    (hq : s.rxq = pre ++ post) (hm : s.moves = List.replicate pre.length (command .rxb) ++ ms) :
    Host.Core.run core (pre.length + n) s =
      Host.Core.run core n { State.drain pre s with rxq := post, moves := ms } := by
  induction pre generalizing s with
  | nil =>
    obtain rfl : s.rxq = post := hq
    obtain rfl : s.moves = ms := hm
    rw [List.length_nil, Nat.zero_add]
    rfl
  | cons b bs ih =>
    have hstep := (step_command_of_producer rfl hm).trans (exec_rxb_of_enabled hp hq)
    have hreceive := State.receive_setQueue s s.rxq (bs ++ post) bs (List.replicate bs.length (command .rxb) ++ ms) b
    have hrun := ih (s := { s.receive b bs with
      rxq := bs ++ post, moves := List.replicate bs.length (command .rxb) ++ ms }) (by simp [hp]) rfl rfl
    rw [State.drain_setQueue] at hrun
    rw [List.length_cons, Nat.add_right_comm]
    exact (run_succ_of_step (hstep.trans (congrArg _ hreceive))).trans hrun

/-- Listed ENVPUSH events append their bytes to the queue, and the run goes on with the moves after them. -/
theorem run_envPushes {new : List Byte} {s : State} {ms : List Move} (n : Nat) (hp : s.irqPend = true)
    (hm : s.moves = new.map Move.envPush ++ ms) :
    Host.Core.run core (new.length + n) s = Host.Core.run core n { s with rxq := s.rxq ++ new, moves := ms } := by
  induction new generalizing s with
  | nil =>
    obtain rfl : s.moves = ms := hm
    rw [List.length_nil, Nat.zero_add, List.append_nil]
  | cons b new ih =>
    have hstep : step s = .next (({ s with moves := new.map Move.envPush ++ ms } : State).push b) := step_cons hm
    rw [List.length_cons, Nat.add_right_comm, run_succ_of_step hstep, ih rfl rfl]
    simp [State.push, hp]

/-- The state of an interleaved drain just after its SWAP: `pre` is drained, and `queue` waits for the other buffer. -/
def State.swappedInDrain (s : State) (pre queue : List Byte) (ms : List Move) : State :=
  ({ State.drain pre s with rxq := queue, moves := ms } : State).handOver.answer (.buffer s.sel)

section SwappedInDrain

variable (s : State) (pre queue : List Byte) (ms : List Move)

@[simp] theorem State.swappedInDrain_sel : (s.swappedInDrain pre queue ms).sel = ~~~ s.sel := by
  simp [State.swappedInDrain]
@[simp] theorem State.swappedInDrain_wrPtr_toNat : (s.swappedInDrain pre queue ms).wrPtr.toNat = 0 := rfl
@[simp] theorem State.swappedInDrain_irqPend : (s.swappedInDrain pre queue ms).irqPend = s.irqPend := by
  simp [State.swappedInDrain]
@[simp] theorem State.swappedInDrain_rxq : (s.swappedInDrain pre queue ms).rxq = queue := rfl
@[simp] theorem State.swappedInDrain_moves : (s.swappedInDrain pre queue ms).moves = ms := rfl
@[simp] theorem State.swappedInDrain_ovr : (s.swappedInDrain pre queue ms).ovr = (State.drain pre s).ovr := rfl
@[simp] theorem State.swappedInDrain_load (c : Addr) :
    (s.swappedInDrain pre queue ms).load c = (State.drain pre s).load c := rfl

end SwappedInDrain

/-- The whole interleaved drain: RXB for `pre`, the arrivals `new` and the SWAP, from where on the listed steps are an
uninterrupted RXIRQ. -/
theorem run_interleavedDrain {s : State} {pre post new : List Byte} {rest : List Move} (hp : s.irqPend = true)
    (hq : s.rxq = pre ++ post) (hd : s.drainAtomic = false)
    (hm : s.moves = List.replicate pre.length (command .rxb) ++ (new.map Move.envPush ++ command .swap ::
      (List.replicate (post ++ new).length (command .rxb) ++ command .rxack :: rest))) :
    Host.Core.run core (pre.length + (new.length + ((post ++ new).length + 1 + 1))) s =
      exec .rxirq (s.swappedInDrain pre (post ++ new) rest) := by
  rw [run_rxbs _ hp hq hm, run_envPushes _ (by simp [hp]) rfl]
  refine (run_succ_of_step (step_command_swap (fun _ => by simp [hd]) rfl)).trans ?_
  refine (run_rxb_rxack (bs := post ++ new) (rest := rest) (by simp [hp]) rfl rfl).trans ?_
  rw [State.swappedInDrain, ← State.drain_sel pre s]
  rfl

/-- Settles O24: the drain of `pre` fills the old buffer, and the RXIRQ after the SWAP fills the other one and leaves the
old one alone. -/
theorem drainInterleaves : Obligations.DrainInterleaves := by
  intro s pre post new rest hp hq hd hw hm
  have hlen : (post ++ new).length = post.length + new.length := List.length_append
  have hrun := run_interleavedDrain hp hq hd (by simpa [hlen] using hm)
  obtain ⟨t, hexec, hquiet, hstored, hkept, hptr, hovr, hframe⟩ :=
    rxirqDrainsQueue.1 (s.swappedInDrain pre (post ++ new) rest) (by simpa using hp) (by simp)
  simp only [State.swappedInDrain_sel, State.swappedInDrain_wrPtr_toNat, State.swappedInDrain_rxq,
    State.swappedInDrain_ovr, State.swappedInDrain_load, Nat.zero_add, State.drain_ovr hw] at hstored hkept hptr hovr
  have hsteps : pre.length + new.length + 1 + (post.length + new.length) + 1 =
      pre.length + (new.length + ((post ++ new).length + 1 + 1)) := by omega
  refine ⟨t, by rw [hsteps]; exact hrun.trans hexec, fun j hj hroom => ?old, hstored, fun c hs hother => ?kept, hptr,
    ?sel, hquiet, hovr, ?moves⟩
  case old =>
    rw [hkept _ fun hk => absurd ((bufferOf_flat hroom).symm.trans hk) (ne_not_bufferIndex s.sel),
      State.drain_load_stored hj hroom]
  case kept => rw [hkept c fun hk => .inr (hother hk), State.drain_load_of_outside hs]
  case sel => rw [hframe]; exact State.swappedInDrain_sel s pre (post ++ new) rest
  case moves => rw [hframe]; exact State.swappedInDrain_moves s pre (post ++ new) rest

end Sys2Proof.Machine

/-! ## Proofs of the family `42_checksum.md` -/

namespace Sys2Proof.Machine

/-! ### A range is its covered bytes and the two bytes of its trailer -/

/-- Of a range of two or more bytes, the check compares the sums of the covered bytes with the trailer
(42_checksum.md R90). -/
theorem rangeValid_append_trailer (c : List Byte) (t₁ t₂ : Byte) :
    rangeValid (c ++ [t₁, t₂]) = decide (fletcher c = (t₁, t₂)) := by
  rw [Bool.eq_iff_iff, decide_eq_true_iff, eq_comm (a := fletcher c)]
  simp [rangeValid, Prod.ext_iff]

theorem exists_eq_append_trailer {d : List Byte} (h : 2 ≤ d.length) : ∃ c t₁ t₂, d = c ++ [t₁, t₂] := by
  obtain ⟨t₁, t₂, ht⟩ := List.length_eq_two.1 (show (d.drop (d.length - 2)).length = 2 by rw [List.length_drop]; omega)
  exact ⟨d.take (d.length - 2), t₁, t₂, by rw [← ht, List.take_append_drop]⟩

theorem two_le_length_of_rangeValid {d : List Byte} (h : rangeValid d = true) : 2 ≤ d.length := by
  by_contra hlt
  simp [rangeValid, Nat.lt_of_not_le hlt] at h

/-- The last two of the loaded bytes are the trailer. -/
theorem State.loads_add_two (s : State) (a : Addr) (n : Nat) :
    s.loads a (n + 2) = s.loads a n ++ [s.load (a + BitVec.ofNat 9 n), s.load (a + BitVec.ofNat 9 (n + 1))] := by
  simp [State.loads, List.range_succ]

/-- CHECK of a range with a trailer, by its loads. -/
theorem State.checkRange_add_two (s : State) (a : Addr) (n : Nat) :
    s.checkRange a (n + 2) =
      decide (fletcher (s.loads a n) = (s.load (a + BitVec.ofNat 9 n), s.load (a + BitVec.ofNat 9 (n + 1)))) := by
  rw [State.checkRange, State.loads_add_two, rangeValid_append_trailer]

/-! ### The closed form of the sums -/

theorem fletcher_append (c d : List Byte) : fletcher (c ++ d) = d.foldl fletcherStep (fletcher c) :=
  List.foldl_append

/-- `sum1` is the sum of the covered bytes. -/
theorem fletcher_fst (c : List Byte) : (fletcher c).1 = c.sum := by
  induction c using List.reverseRecOn with
  | nil => rfl
  | append_singleton c b ih =>
    rw [fletcher_append, List.sum_append, List.sum_singleton, ← ih]
    rfl

/-- A further covered byte enters the weighted sum once, and raises the weight of every byte before it by one. -/
theorem weightedSum_succ (f : Nat → Nat) (n : Nat) :
    ∑ j ∈ Finset.range (n + 1), (n + 1 - j) * f j =
      ∑ j ∈ Finset.range n, (n - j) * f j + ∑ j ∈ Finset.range (n + 1), f j := by
  have hweight : ∀ j ∈ Finset.range (n + 1), (n + 1 - j) * f j = (n - j) * f j + f j := fun j hj => by
    rw [Nat.succ_sub (Nat.le_of_lt_succ (Finset.mem_range.1 hj)), Nat.succ_mul]
  rw [Finset.sum_congr rfl hweight, Finset.sum_add_distrib, Finset.sum_range_succ (fun j => (n - j) * f j)]
  simp

/-- The sums are the sum and the weighted sum of the covered bytes modulo 256 (42_checksum.md R91). -/
theorem fletcher_toNat (f : Nat → Byte) (n : Nat) :
    (fletcher ((List.range n).map f)).1.toNat = (∑ j ∈ Finset.range n, (f j).toNat) % 256 ∧
    (fletcher ((List.range n).map f)).2.toNat = (∑ j ∈ Finset.range n, (n - j) * (f j).toNat) % 256 := by
  induction n with
  | zero => exact ⟨rfl, rfl⟩
  | succ n ih =>
    obtain ⟨h₁, h₂⟩ := ih
    rw [weightedSum_succ fun j => (f j).toNat, Finset.sum_range_succ, List.range_succ, List.map_append, fletcher_append]
    simp only [List.map_cons, List.map_nil, List.foldl_cons, List.foldl_nil, fletcherStep, BitVec.toNat_add, h₁, h₂]
    omega

/-- Settles O25: the comparison of the trailer with the sums, in their closed form. -/
theorem checkComparesFletcherSums : Obligations.CheckComparesFletcherSums := by
  intro s a len hr hb d n
  refine ⟨s.checkRange a len.toNat,
    exec_check_of_admitted (rangeInBuffer_iff.2 hr) (State.inReadBuffer_iff.2 hb), ?_⟩
  by_cases hlen : 2 ≤ len.toNat
  · obtain ⟨h₁, h₂⟩ := fletcher_toNat (fun j => s.load (a + BitVec.ofNat 9 j)) n
    have hn : len.toNat = n + 2 := by omega
    rw [hn, State.checkRange_add_two, decide_eq_true_iff, Prod.ext_iff, ← BitVec.toNat_inj, ← BitVec.toNat_inj,
      State.loads, h₁, h₂]
    exact ⟨fun ⟨hsum, hweighted⟩ => ⟨by omega, hsum.symm, hweighted.symm⟩,
      fun ⟨_, hsum, hweighted⟩ => ⟨hsum.symm, hweighted.symm⟩⟩
  · simp [State.checkRange_of_short (Nat.lt_of_not_le hlen), hlen]

/-- Settles O26: a range of two bytes is a trailer alone, and the sums of no byte are the start value 0. -/
theorem checkShortRanges : Obligations.CheckShortRanges := by
  intro s a len hr hb
  rw [exec_check_of_admitted (rangeInBuffer_iff.2 hr) (State.inReadBuffer_iff.2 hb)]
  refine ⟨fun hlen => by rw [State.checkRange_of_short hlen]; rfl, fun hlen => ?two⟩
  case two =>
    have hstart : fletcher (s.loads a 0) = (0, 0) := rfl
    have hcheck : s.checkRange a 2 = decide (s.load a = 0 ∧ s.load (a + 1) = 0) := by
      simp [State.checkRange_add_two s a 0, hstart, eq_comm (a := 0#8)]
    rw [hlen, hcheck]
    rfl

/-- Settles O27: each sum is computed. -/
theorem checksumTableValues : Obligations.ChecksumTableValues := by
  unfold Obligations.ChecksumTableValues
  decide

/-! ### What the check detects, and what it cannot -/

/-- Any change of one byte of a valid range makes it invalid: a covered byte moves `sum1` away from the trailer, and the
sums stay where the trailer changes. -/
theorem rangeValid_set_eq_false {d : List Byte} {i : Nat} {b : Byte} (h : i < d.length) (hne : b ≠ d[i])
    (hv : rangeValid d = true) : rangeValid (d.set i b) = false := by
  obtain ⟨c, t₁, t₂, rfl⟩ := exists_eq_append_trailer (two_le_length_of_rangeValid hv)
  rw [rangeValid_append_trailer, decide_eq_true_iff] at hv
  by_cases hi : i < c.length
  · rw [List.getElem_append_left hi] at hne
    rw [List.set_append_left _ _ hi, rangeValid_append_trailer, decide_eq_false_iff_not]
    intro hv'
    have hsum : (c.set i b).sum = c.sum := by rw [← fletcher_fst, ← fletcher_fst, hv, hv']
    rw [List.sum_set', dif_pos hi, add_eq_left, neg_add_eq_zero] at hsum
    exact hne hsum.symm
  · rw [List.getElem_append_right (by omega)] at hne
    rw [List.set_append_right _ _ (by omega)]
    have htrailer : i - c.length = 0 ∨ i - c.length = 1 := by
      rw [List.length_append, List.length_cons, List.length_singleton] at h
      omega
    rcases htrailer with hk | hk
    · have hne₁ : t₁ ≠ b := fun he => hne (by simp [hk, he])
      simp [hk, rangeValid_append_trailer, hv, hne₁]
    · have hne₂ : t₂ ≠ b := fun he => hne (by simp [hk, he])
      simp [hk, rangeValid_append_trailer, hv, hne₂]

/-- Settles O28: a flipped bit changes its byte. -/
theorem singleBitFlipDetected : Obligations.SingleBitFlipDetected := by
  intro d i m h hm hv
  have hbit : ∀ m < 8, 1#8 <<< m ≠ 0 := by decide
  exact rangeValid_set_eq_false h (fun he => hbit m hm (by simpa using he)) hv

/-- Three steps cannot tell the balanced change: it adds 1 - 2 + 1 to `sum1` and 3·1 - 2·2 + 1 to `sum2`. -/
theorem foldl_fletcherStep_balanced (sums : Byte × Byte) (d₀ d₁ d₂ : Byte) :
    [d₀ + 1, d₁ - 2, d₂ + 1].foldl fletcherStep sums = [d₀, d₁, d₂].foldl fletcherStep sums := by
  simp only [List.foldl_cons, List.foldl_nil, fletcherStep, Prod.mk.injEq]
  constructor <;> ring

/-- Settles O29: the sums after the three changed bytes are the same, so every later sum is. -/
theorem balancedChangeUndetected : Obligations.BalancedChangeUndetected := by
  intro pre post d₀ d₁ d₂ hpost
  obtain ⟨c, t₁, t₂, rfl⟩ := exists_eq_append_trailer hpost
  have hsums : fletcher (pre ++ ([d₀ + 1, d₁ - 2, d₂ + 1] ++ c)) = fletcher (pre ++ ([d₀, d₁, d₂] ++ c)) := by
    rw [fletcher_append, fletcher_append, List.foldl_append, List.foldl_append, foldl_fletcherStep_balanced]
  have hvalid := congrArg (fun sums => decide (sums = (t₁, t₂))) hsums
  simpa only [← rangeValid_append_trailer, List.append_assoc, List.cons_append, List.nil_append] using hvalid

end Sys2Proof.Machine


/-! ## Proofs of the family `43_frame_parser.md` -/

namespace Sys2Proof.Machine

/-! ### The bytes of a frame -/

/-- A byte put below a word adds eight low bits to its number. -/
theorem toNat_append_byte {n : Nat} (w : BitVec n) (b : Byte) : (w ++ b).toNat = w.toNat * 2 ^ 8 + b.toNat := by
  rw [BitVec.toNat_append, ← Nat.shiftLeft_add_eq_or_of_lt b.isLt, Nat.shiftLeft_eq]

/-- The pattern of a field is its big-endian number (20_memory.md R33). -/
theorem State.load32_toNat (s : State) (a : Addr) : (s.load32 a).toNat = bigEndian s a := by
  simp only [State.load32, bigEndian, toNat_append_byte]
  omega

theorem State.load32_eq_bigEndian (s : State) (a : Addr) : s.load32 a = BitVec.ofNat 32 (bigEndian s a) := by
  rw [← State.load32_toNat, BitVec.ofNat_toNat, BitVec.setWidth_eq]

/-- Settles O30: the four loads put together are the big-endian number, and the refusals are R61's two conditions. -/
theorem decf32AssemblesBigEndian : Obligations.Decf32AssemblesBigEndian := by
  refine ⟨fun a => ⟨decode_encode (.decf32 a), rfl⟩, fun s a hr hb => ⟨?answer, ?bound⟩, fun s a h => ?refused⟩
  case answer =>
    rw [exec_decf32_of_admitted (rangeInBuffer_iff.2 (by omega)) (State.inReadBuffer_iff.2 hb),
      State.load32_eq_bigEndian]
    rfl
  case bound =>
    rw [← State.load32_toNat]
    exact (s.load32 a).isLt
  case refused =>
    rw [exec_decf32_refused_iff, rangeInBuffer_iff, State.not_inReadBuffer_iff]
    omega

/-- The loads from offset `o` of a buffer are the bytes of its frame there. -/
theorem State.loads_flat (s : State) (k : BitVec 1) (o n : Nat) : s.loads (flat k o) n = frameBytes s k o n :=
  List.map_congr_left fun j _ => by rw [flat_add]

/-! ### PARSE -/

/-- The state after PARSE (43_frame_parser.md R101). -/
def State.parsed (s : State) : State :=
  ((s.handOver.parseSubframe s.sel Config.sf1Base Config.sf1Len Config.motionFields).parseSubframe
    s.sel Config.sf2Base Config.sf2Len Config.orientFields).answer .none

theorem exec_parse (s : State) : exec .parse s = .next s.parsed := rfl

/-- CHECK's result on the sub-frame of buffer `k` that holds the field of `x[j]`. -/
def State.fieldValid (s : State) (k : BitVec 1) (j : Fin 9) : Bool :=
  if j.val < 6 then s.checkRange (flat k 0) 34 else s.checkRange (flat k 34) 22

theorem State.fieldValid_of_motion {s : State} {k : BitVec 1} {j : Fin 9} (hj : j.val < 6) :
    s.fieldValid k j = rangeValid (frameBytes s k 0 34) := by
  rw [State.fieldValid, if_pos hj, State.checkRange, State.loads_flat]

theorem State.fieldValid_of_orient {s : State} {k : BitVec 1} {j : Fin 9} (hj : ¬ j.val < 6) :
    s.fieldValid k j = rangeValid (frameBytes s k 34 22) := by
  rw [State.fieldValid, if_neg hj, State.checkRange, State.loads_flat]

theorem mem_motionFields_iff {j : Fin 9} : j ∈ Config.motionFields ↔ j.val < 6 := by revert j; decide

theorem mem_orientFields_iff {j : Fin 9} : j ∈ Config.orientFields ↔ ¬ j.val < 6 := by revert j; decide

/-- The first half of PARSE writes no byte, so the second check and the second half's fields do not see it. -/
theorem State.parseSubframe_checkRange (s : State) (k : BitVec 1) (a n : Nat) (fs : List (Fin 9)) (c : Addr) (m : Nat) :
    (s.parseSubframe k a n fs).checkRange c m = s.checkRange c m :=
  State.checkRange_congr c m fun _ _ => s.parseSubframe_load k a n fs _

theorem State.parseSubframe_load32 (s : State) (k : BitVec 1) (a n : Nat) (fs : List (Fin 9)) (c : Addr) :
    (s.parseSubframe k a n fs).load32 c = s.load32 c :=
  State.load32_congr c fun _ _ => s.parseSubframe_load k a n fs _

section Parsed

variable (s : State)

@[simp] theorem State.parsed_sel : s.parsed.sel = ~~~ s.sel := by simp [State.parsed]
@[simp] theorem State.parsed_wrPtr : s.parsed.wrPtr = 0 := by simp [State.parsed]
@[simp] theorem State.parsed_ovr : s.parsed.ovr = s.ovr := by simp [State.parsed]
@[simp] theorem State.parsed_out : s.parsed.out = .none := rfl
@[simp] theorem State.parsed_draws : s.parsed.draws = s.draws := by simp [State.parsed]
@[simp] theorem State.parsed_moves : s.parsed.moves = s.moves := by simp [State.parsed]
@[simp] theorem State.parsed_load (c : Addr) : s.parsed.load c = s.load c := by simp [State.parsed]

/-- PARSE writes the selector, the write index, the registers and the result outputs, and no other field. -/
theorem State.parsed_frame :
    s.parsed = { s with sel := s.parsed.sel, wrPtr := s.parsed.wrPtr, x := s.parsed.x, out := s.parsed.out } := by
  have hframe := exec_frame_of_consumer rfl (exec_parse s)
  rwa [State.parsed_draws] at hframe

/-- The registers after PARSE: each takes its field of the buffer handed over when the sub-frame of that field is valid,
and keeps its value otherwise. -/
theorem State.parsed_reading (j : Fin 9) :
    s.parsed.reading j =
      if s.fieldValid s.sel j then s.load32 (flat s.sel (Config.fieldOffset j)) else s.reading j := by
  rw [State.parsed, State.answer_reading, State.parseSubframe_reading, State.parseSubframe_checkRange,
    State.parseSubframe_load32, State.parseSubframe_reading, State.fieldValid]
  by_cases hj : j.val < 6
  · simp only [mem_motionFields_iff, mem_orientFields_iff, hj, not_true_eq_false, and_false, and_true, if_true,
      if_false]
    rfl
  · simp only [mem_motionFields_iff, mem_orientFields_iff, hj, not_false_eq_true, and_false, and_true, if_false]
    rfl

end Parsed

/-- Settles O31: each listed pair is a register and its field's offset, and the register's check is that of its
sub-frame. -/
theorem parseUpdatesValidSubframes : Obligations.ParseUpdatesValidSubframes := by
  have hmotion : ∀ jo ∈ ([(0, 6), (1, 10), (2, 14), (3, 20), (4, 24), (5, 28)] : List (Fin 9 × Nat)),
      jo.2 = Config.fieldOffset jo.1 ∧ jo.1.val < 6 := by decide
  have horient : ∀ jo ∈ ([(6, 40), (7, 44), (8, 48)] : List (Fin 9 × Nat)),
      jo.2 = Config.fieldOffset jo.1 ∧ ¬ jo.1.val < 6 := by decide
  refine ⟨decode_encode .parse, rfl, fun s => ⟨s.parsed, exec_parse s, s.parsed_sel, s.parsed_wrPtr, s.parsed_out,
    fun j o hjo => ?motion, fun j o hjo => ?orient, s.parsed_load, s.parsed_frame⟩⟩
  case motion =>
    obtain ⟨rfl, hj⟩ : o = Config.fieldOffset j ∧ j.val < 6 := hmotion (j, o) hjo
    rw [State.parsed_reading, State.fieldValid_of_motion hj, State.load32_eq_bigEndian]
  case orient =>
    obtain ⟨rfl, hj⟩ : o = Config.fieldOffset j ∧ ¬ j.val < 6 := horient (j, o) hjo
    rw [State.parsed_reading, State.fieldValid_of_orient hj, State.load32_eq_bigEndian]

/-! ### The pieces of PARSE -/

section SameReadBuffer

variable {u t : State} (h : u.SameReadBuffer t)
include h

theorem State.SameReadBuffer.inReadBuffer (a : Addr) : t.inReadBuffer a = u.inReadBuffer a := by
  obtain ⟨hsel, -⟩ := h
  rw [State.inReadBuffer, State.inReadBuffer, hsel]

/-- While the read buffer stays the same, a stand-alone CHECK of it answers the same. -/
theorem State.SameReadBuffer.exec_check {a len : BitVec 9} (hr : rangeInBuffer a len.toNat = true)
    (hb : u.inReadBuffer a = true) :
    exec (.check a len) t = .next (t.answer (.valid (u.checkRange a len.toNat))) := by
  have ⟨_, hload⟩ := h
  rw [exec_check_of_admitted hr ((h.inReadBuffer a).trans hb),
    State.checkRange_congr a len.toNat fun j hj => hload _ (State.bufferOf_add_of_admitted hr hb hj)]

/-- While the read buffer stays the same, a stand-alone DECF32 in it answers the same. -/
theorem State.SameReadBuffer.exec_decf32 {a : BitVec 9} (hr : rangeInBuffer a 4 = true)
    (hb : u.inReadBuffer a = true) : exec (.decf32 a) t = .next (t.answer (.pattern (u.load32 a))) := by
  have ⟨_, hload⟩ := h
  rw [exec_decf32_of_admitted hr ((h.inReadBuffer a).trans hb),
    State.load32_congr a fun j hj => hload _ (State.bufferOf_add_of_admitted hr hb hj)]

end SameReadBuffer

theorem rangeInBuffer_flat {k : BitVec 1} {o n : Nat} (ho : o < 256) (hn : o + n ≤ 256) :
    rangeInBuffer (flat k o) n = true := by
  rw [rangeInBuffer, offsetOf_flat ho]
  exact decide_eq_true hn

/-- The buffer that SWAP hands over is the read buffer (40_double_buffer.md R75). -/
theorem State.handOver_inReadBuffer (s : State) {o : Nat} (ho : o < 256) :
    s.handOver.inReadBuffer (flat s.sel o) = true := by
  simp [State.inReadBuffer, bufferOf_flat ho]

/-- Settles O33: the run keeps every byte of the buffer handed over, so the stand-alone CHECKs and DECF32s there read
what PARSE read. -/
theorem parseEqualsItsPieces : Obligations.ParseEqualsItsPieces := by
  intro s p u t n hparse hswap hk hrun
  obtain rfl := Host.Outcome.next.inj ((exec_parse s).symm.trans hparse)
  cases hswap
  have hsame : s.handOver.SameReadBuffer t :=
    readBufferStable n (s.handOver.answer (.buffer s.sel)) t hk hrun
  have hoffset : ∀ j, Config.fieldOffset j + 4 ≤ 256 := by decide
  refine ⟨s.checkRange (flat s.sel 0) 34, s.checkRange (flat s.sel 34) 22,
    hsame.exec_check (rangeInBuffer_flat (by decide) (by decide)) (s.handOver_inReadBuffer (by decide)),
    hsame.exec_check (rangeInBuffer_flat (by decide) (by decide)) (s.handOver_inReadBuffer (by decide)),
    fun j => ⟨s.load32 (flat s.sel (Config.fieldOffset j)), ?field, s.parsed_reading j⟩⟩
  case field =>
    have ho : Config.fieldOffset j < 256 := by have := hoffset j; omega
    exact hsame.exec_decf32 (rangeInBuffer_flat ho (hoffset j)) (s.handOver_inReadBuffer ho)

/-! ### A delivered frame -/

/-- Buffer `k` holds the bytes `f` from offset 0 on. -/
def State.HoldsFrame (s : State) (k : BitVec 1) (f : List Byte) : Prop :=
  ∀ (i : Nat) (h : i < f.length), s.load (flat k i) = f[i]

section HoldsFrame

variable {s : State} {k : BitVec 1} {f : List Byte} (hf : s.HoldsFrame k f)
include hf

theorem State.HoldsFrame.frameBytes_eq {o n : Nat} (hn : o + n ≤ f.length) :
    frameBytes s k o n = (f.drop o).take n := by
  refine List.ext_getElem (by simp [frameBytes]; omega) fun i hi _ => ?_
  have hin : i < n := by simpa [frameBytes] using hi
  simpa [frameBytes] using hf (o + i) (by omega)

theorem State.HoldsFrame.load32_eq {o : Nat} (ho : o + 3 < f.length) :
    s.load32 (flat k o) = f[o] ++ f[o + 1] ++ f[o + 2] ++ f[o + 3] := by
  have hbyte : ∀ (i : Nat) (hi : i < 4), s.load (flat k o + BitVec.ofNat 9 i) = f[o + i] := fun i hi => by
    rw [flat_add]; exact hf _ _
  rw [← hf o (by omega), ← hbyte 1 (by decide), ← hbyte 2 (by decide), ← hbyte 3 (by decide)]
  rfl

/-- The check of each sub-frame of a whole frame is that of its part of the frame's bytes. -/
theorem State.HoldsFrame.fieldValid_eq (hlen : f.length = 56) (j : Fin 9) :
    s.fieldValid k j = rangeValid (if j.val < 6 then f.take 34 else f.drop 34) := by
  split_ifs with hj
  · rw [State.fieldValid_of_motion hj, hf.frameBytes_eq (by omega), List.drop_zero]
  · rw [State.fieldValid_of_orient hj, hf.frameBytes_eq (by omega), List.take_of_length_le (by simp [hlen])]

end HoldsFrame

/-- Bytes delivered one by one wait in the queue, with the condition pending (41_frame_receiver.md R80). -/
theorem run_delivery {f : List Byte} {s : State} {ms : List Move} (n : Nat) (hne : f ≠ []) (hq : s.rxq = [])
    (hm : s.moves = f.map Move.envPush ++ ms) :
    Host.Core.run core (f.length + n) s = Host.Core.run core n { s with rxq := f, irqPend := true, moves := ms } := by
  obtain ⟨b, bs, rfl⟩ := List.exists_cons_of_ne_nil hne
  have hstep : step s = .next (({ s with moves := bs.map Move.envPush ++ ms } : State).push b) := step_cons hm
  rw [List.length_cons, Nat.add_right_comm, run_succ_of_step hstep, run_envPushes n rfl rfl]
  simp [State.push, hq]

/-- RXIRQ on an empty write-active buffer puts a queue that fits into it at offset 0, leaves `ovr` alone and ends the
service. -/
theorem exec_rxirq_holdsFrame {s : State} (hp : s.irqPend = true) (hw : s.wrPtr = 0) (hfit : s.rxq.length ≤ 256) :
    ∃ t, exec .rxirq s = .next t ∧ t.HoldsFrame s.sel s.rxq ∧ t.sel = s.sel ∧ t.x = s.x ∧ t.ovr = s.ovr ∧
      t.inService = false ∧ t.moves = s.moves := by
  have hptr : s.wrPtr.toNat = 0 := by rw [hw]; rfl
  obtain ⟨t, hexec, -, hstored, -, -, hovr, hframe⟩ := rxirqDrainsQueue.1 s hp (by omega)
  simp only [hptr, Nat.zero_add] at hstored hovr
  refine ⟨t, hexec, fun i hi => hstored i hi (by omega), by rw [hframe], by rw [hframe], ?_, by rw [hframe],
    by rw [hframe]⟩
  rw [hovr, decide_eq_false (by omega), Bool.or_false]

/-- A listed PARSE outside any service parses. -/
theorem step_command_parse {s : State} {rest : List Move} (hs : s.inService = false)
    (hm : s.moves = command .parse :: rest) : step s = .next ({ s with moves := rest } : State).parsed :=
  stepRunsDecoded .consumer _ .parse rest s hm (decode_encode .parse) rfl fun _ h => by rw [hs] at h; cases h

/-- Settles O34: the delivery fills the queue, the drain puts the frame into the buffer that PARSE hands over, and the
frame's bytes are what its checks and fields read. -/
theorem deliveredFrameIsParsed : Obligations.DeliveredFrameIsParsed := by
  rintro s f hlen rest ⟨hq, -⟩ hw hm
  have hdelivery := run_delivery 2 (List.ne_nil_of_length_eq_add_one hlen) hq hm
  obtain ⟨u, hdrain, hf, hsel, hx, hovr, hserv, hmoves⟩ := exec_rxirq_holdsFrame
    (s := { s with rxq := f, irqPend := true, moves := command .parse :: rest }) rfl hw (by simp [hlen])
  have hrxirq := (step_command_of_producer (s := { s with
    rxq := f, irqPend := true, moves := command .rxirq :: command .parse :: rest }) rfl rfl).trans hdrain
  have hparse := step_command_parse hserv hmoves
  rw [hlen, run_succ_of_step hrxirq, run_succ_of_step hparse] at hdelivery
  have hfields : ∀ jo ∈ ([(0, 6), (1, 10), (2, 14), (3, 20), (4, 24), (5, 28), (6, 40), (7, 44), (8, 48)] :
      List (Fin 9 × Nat)), jo.2 = Config.fieldOffset jo.1 := by decide
  refine ⟨({ u with moves := rest } : State).parsed, hdelivery, by simp, by simpa using hovr, fun j o ho hjo => ?fields⟩
  case fields =>
    have hf' : ({ u with moves := rest } : State).HoldsFrame u.sel f := by rw [hsel]; exact hf
    have hkept : ({ u with moves := rest } : State).reading j = s.reading j := congrArg (·[j]) hx
    obtain rfl : o = Config.fieldOffset j := hfields (j, o) hjo
    rw [State.parsed_reading, hf'.fieldValid_eq hlen, hf'.load32_eq (by omega), hkept]

end Sys2Proof.Machine

/-! ## Proofs of the family `44_fixed_point.md` -/

namespace Sys2Proof

/-! ### Rounding toward zero -/

theorem truncRat_of_nonneg {r : ℚ} (h : 0 ≤ r) : truncRat r = ⌊r⌋ := if_neg h.not_gt

@[simp] theorem truncRat_neg (r : ℚ) : truncRat (-r) = -truncRat r := by
  rcases lt_trichotomy r 0 with h | rfl | h
  · rw [truncRat, truncRat, if_neg (by linarith), if_pos h, Int.floor_neg]
  · rfl
  · rw [truncRat, truncRat, if_pos (by linarith), if_neg h.not_gt, Int.ceil_neg]

theorem truncRat_lt_iff {r : ℚ} {b : ℤ} (hb : 0 < b) : truncRat r < b ↔ r < b := by
  unfold truncRat
  split_ifs with h
  · have hb' : (0 : ℚ) < b := by exact_mod_cast hb
    have hceil : ⌈r⌉ ≤ 0 := Int.ceil_le.2 (by simpa using h.le)
    exact iff_of_true (by omega) (h.trans hb')
  · exact Int.floor_lt

theorem lt_truncRat_iff {r : ℚ} {a : ℤ} (ha : a < 0) : a < truncRat r ↔ (a : ℚ) < r := by
  have h := truncRat_lt_iff (r := -r) (b := -a) (by omega)
  rw [truncRat_neg, Int.cast_neg] at h
  rwa [neg_lt_neg_iff, neg_lt_neg_iff] at h

theorem truncRat_eq_zero {r : ℚ} (h : |r| < 1) : truncRat r = 0 := by
  obtain ⟨hlo, hhi⟩ := abs_lt.1 h
  have := (lt_truncRat_iff (r := r) (a := -1) (by decide)).2 (by simpa using hlo)
  have := (truncRat_lt_iff (r := r) (b := 1) (by decide)).2 (by simpa using hhi)
  omega

end Sys2Proof

namespace Sys2Proof.Machine

/-! ### The exact product -/

theorem fracField_lt (p : Pattern) : fracField p < 2 ^ 23 := (p.extractLsb' 0 23).isLt

theorem significand_lt (p : Pattern) : significand p < 2 ^ 24 := by
  have := fracField_lt p
  unfold significand
  split_ifs <;> omega

/-- The magnitude of `val32 p * 2^q`, as a significand and a power of two (44_fixed_point.md R121 (2)). -/
def productMagnitude (p : Pattern) (q : Nat) : ℚ := significand p * (2 : ℚ) ^ ((q + scaleField p : ℕ) - 150 : ℤ)

theorem productMagnitude_nonneg (p : Pattern) (q : Nat) : 0 ≤ productMagnitude p q := by
  unfold productMagnitude; positivity

theorem val32_mul_two_pow (p : Pattern) (q : Nat) :
    val32 p * 2 ^ q = if signBit p then -productMagnitude p q else productMagnitude p q := by
  have hscale (e : ℤ) : (2 : ℚ) ^ (e - 150) * 2 ^ q = 2 ^ (q + e - 150) := by
    rw [← zpow_natCast, ← zpow_add₀ two_ne_zero]
    congr 1; ring
  simp only [val32, productMagnitude, significand, scaleField]
  split_ifs <;> push_cast <;> rw [← hscale] <;> ring

theorem abs_val32_mul_two_pow (p : Pattern) (q : Nat) : |val32 p * 2 ^ q| = productMagnitude p q := by
  rw [val32_mul_two_pow]
  split_ifs
  · rw [abs_neg, abs_of_nonneg (productMagnitude_nonneg p q)]
  · exact abs_of_nonneg (productMagnitude_nonneg p q)

/-- The model's shift of the significand is the floor of the exact magnitude. -/
theorem floor_productMagnitude (p : Pattern) (q : Nat) : ⌊productMagnitude p q⌋ = truncMagnitude p q := by
  unfold productMagnitude truncMagnitude
  split_ifs with h
  · rw [← Nat.cast_ofNat (n := 150), ← Nat.cast_sub h, zpow_natCast]
    exact_mod_cast Int.floor_natCast (R := ℚ) _
  · rw [← neg_sub, ← Nat.cast_ofNat (n := 150), ← Nat.cast_sub (Nat.le_of_not_le h), zpow_neg, zpow_natCast,
      ← div_eq_mul_inv]
    exact_mod_cast Rat.floor_natCast_div_natCast _ _

/-- The integer that the model forms is the exact product, truncated toward zero (44_fixed_point.md R110). -/
theorem truncProduct_eq (p : Pattern) (q : Nat) : truncProduct p q = truncRat (val32 p * 2 ^ q) := by
  rw [val32_mul_two_pow, truncProduct, ← floor_productMagnitude, ← truncRat_of_nonneg (productMagnitude_nonneg p q)]
  split_ifs
  · exact (truncRat_neg _).symm
  · rfl

/-- A product stays below `2^128` exactly when its exponent stays below that of the infinities
(44_fixed_point.md R121 (2)). -/
theorem productMagnitude_lt_iff {p : Pattern} {q : Nat} (hq : q ≤ 127) :
    productMagnitude p q < 2 ^ 128 ↔ q + expField p ≤ 254 := by
  unfold productMagnitude
  constructor
  · contrapose!
    intro h
    have hexp : expField p ≠ 0 := by omega
    have hsig : (2 : ℚ) ^ 23 ≤ significand p := by
      rw [significand, if_neg hexp]; push_cast; linarith [(fracField p).cast_nonneg (α := ℚ)]
    have hscale : (2 : ℚ) ^ (105 : ℤ) ≤ 2 ^ ((q + scaleField p : ℕ) - 150 : ℤ) := by
      rw [scaleField, if_neg hexp]; exact zpow_le_zpow_right₀ one_le_two (by omega)
    calc (2 : ℚ) ^ 128 = 2 ^ 23 * 2 ^ (105 : ℤ) := by norm_num
      _ ≤ _ := mul_le_mul hsig hscale (by positivity) (by positivity)
  · intro h
    have hsig : (significand p : ℚ) < 2 ^ 24 := by exact_mod_cast significand_lt p
    have hscale : (2 : ℚ) ^ ((q + scaleField p : ℕ) - 150 : ℤ) ≤ 2 ^ (104 : ℤ) :=
      zpow_le_zpow_right₀ one_le_two (by unfold scaleField; split_ifs <;> omega)
    calc _ < (2 : ℚ) ^ 24 * 2 ^ (104 : ℤ) := mul_lt_mul hsig hscale (by positivity) (by positivity)
      _ = 2 ^ 128 := by norm_num

theorem productFinite_iff {p : Pattern} {q : Nat} (hq : q ≤ 127) :
    productFinite p q = true ↔ expField p ≠ 255 ∧ |val32 p * 2 ^ q| < 2 ^ 128 := by
  rw [abs_val32_mul_two_pow, productMagnitude_lt_iff hq, productFinite]
  simp

theorem overflows_iff {t : ℤ} : overflows t = true ↔ t < -32768 ∨ 32767 < t := by simp [overflows]

theorem not_overflows_iff {t : ℤ} : overflows t = false ↔ -32769 < t ∧ t < 32768 := by
  rw [← Bool.not_eq_true, overflows_iff]
  omega

theorem overflows_truncRat_eq_false_iff {r : ℚ} : overflows (truncRat r) = false ↔ -32769 < r ∧ r < 32768 := by
  have hlo := lt_truncRat_iff (r := r) (a := -32769) (by decide)
  have hhi := truncRat_lt_iff (r := r) (b := 32768) (by decide)
  push_cast at hlo hhi
  rw [not_overflows_iff, hlo, hhi]

theorem wrap16_toInt {t : ℤ} (h : overflows t = false) : (wrap16 t).toInt = t := by
  obtain ⟨hlo, hhi⟩ := not_overflows_iff.1 h
  exact BitVec.toInt_ofInt_eq_self (by decide) (by omega) (by omega)

/-! ### The conversion in exact terms -/

/-- A conversion has `ovf = 0` exactly on the open interval of its Q factor, and then its value is the truncated product:
any product in range is finite, so the free value never has `ovf = 0`. -/
theorem State.convert_exact (s : State) (p : Pattern) {q : Nat} (hq : q ≤ 127) :
    ∃ r v, (s.convert p q).out = .fixed r v ∧
      (v = false ↔ expField p ≠ 255 ∧ -32769 / 2 ^ q < val32 p ∧ val32 p < 32768 / 2 ^ q) ∧
      (v = false → r.toInt = truncRat (val32 p * 2 ^ q)) := by
  rw [div_lt_iff₀ (by positivity), lt_div_iff₀ (by positivity)]
  cases hf : productFinite p q with
  | true =>
    obtain ⟨hexp, -⟩ := (productFinite_iff hq).1 hf
    refine ⟨_, _, congrArg State.out (s.convert_of_finite hf), ?_, fun hv => ?_⟩
    · rw [truncProduct_eq, overflows_truncRat_eq_false_iff, and_iff_right hexp]
    · rw [wrap16_toInt hv, truncProduct_eq]
  | false =>
    refine ⟨_, _, congrArg State.out (s.convert_of_nonfinite hf), iff_of_false nofun ?_, nofun⟩
    rintro ⟨hexp, hlo, hhi⟩
    have : |val32 p * 2 ^ q| < 2 ^ 128 := abs_lt.2 ⟨by linarith, by linarith⟩
    rw [(productFinite_iff hq).2 ⟨hexp, this⟩] at hf
    cases hf

/-- A product of magnitude below 1 converts to 0 without overflow. -/
theorem State.convert_of_tiny (s : State) {p : Pattern} {q : Nat} (hq : q ≤ 127) (hexp : expField p ≠ 255)
    (h : |val32 p * 2 ^ q| < 1) : s.convert p q = s.answer (.fixed 0 false) := by
  have hf : productFinite p q = true := (productFinite_iff hq).2 ⟨hexp, h.trans (by norm_num)⟩
  rw [s.convert_of_finite hf, truncProduct_eq, truncRat_eq_zero h]
  rfl

/-- Up to `q = 126` the product of a subnormal stays below 1. -/
theorem productMagnitude_lt_one {p : Pattern} {q : Nat} (hexp : expField p = 0) (hq : q ≤ 126) :
    productMagnitude p q < 1 := by
  have hfrac : (fracField p : ℚ) < 2 ^ 23 := by exact_mod_cast fracField_lt p
  have hscale : (2 : ℚ) ^ ((q + 1 : ℕ) - 150 : ℤ) ≤ 2 ^ (-23 : ℤ) := zpow_le_zpow_right₀ one_le_two (by omega)
  rw [productMagnitude, significand, scaleField, if_pos hexp, if_pos hexp]
  calc _ < (2 : ℚ) ^ 23 * 2 ^ (-23 : ℤ) := mul_lt_mul hfrac hscale (by positivity) (by positivity)
    _ = 1 := by norm_num

theorem State.convert_of_subnormal (s : State) {p : Pattern} {q : Nat} (hexp : expField p = 0) (hq : q ≤ 126) :
    s.convert p q = s.answer (.fixed 0 false) :=
  s.convert_of_tiny (by omega) (by omega) ((abs_val32_mul_two_pow p q).trans_lt (productMagnitude_lt_one hexp hq))

/-- At `q = 127` a subnormal is scaled by `2^-22`, so its product truncates to 0 or to 1 in magnitude (log entry 13). -/
theorem truncProduct_of_subnormal {p : Pattern} (hexp : expField p = 0) :
    truncProduct p 127 = if fracField p < 2 ^ 22 then 0 else if signBit p then -1 else 1 := by
  have := fracField_lt p
  have hmag : truncMagnitude p 127 = fracField p / 2 ^ 22 := by simp [truncMagnitude, significand, scaleField, hexp]
  rw [truncProduct, hmag]
  split_ifs <;> omega

/-! ### TOFIXED -/

theorem exec_tofixed_of_not_admitted {p : Pattern} {q : BitVec 8} {s : State} (hq : ¬ qAdmitted q = true) :
    exec (.tofixed p q) s = .refused .qTooLarge := by
  simp [exec, execTofixed, hq]

section Tofixed

variable {p : Pattern} {q : BitVec 8} (s : State) (hq : qAdmitted q = true)
include hq

theorem exec_tofixed_of_finite (hf : productFinite p q.toNat = true) :
    exec (.tofixed p q) s =
      .next { s with out := .fixed (wrap16 (truncProduct p q.toNat)) (overflows (truncProduct p q.toNat)) } := by
  rw [exec_tofixed_of_admitted hq, s.convert_of_finite hf]; rfl

theorem exec_tofixed_of_nonfinite (hf : productFinite p q.toNat = false) :
    exec (.tofixed p q) s =
      .next { s with out := .fixed (Config.fxNonfinite s.draws) true, draws := s.draws + 1 } := by
  rw [exec_tofixed_of_admitted hq, s.convert_of_nonfinite hf]; rfl

end Tofixed

/-- Settles O35: the product is finite exactly below `2^128`, and the integer formed from a finite product is the exact
one, truncated. -/
theorem tofixedIsTruncatedProduct : Obligations.TofixedIsTruncatedProduct := by
  refine fun s p q => ⟨decode_of_carries ⟨rfl, rfl, rfl⟩, rfl, ?_⟩
  by_cases hq : q.toNat ≤ 127
  case neg =>
    rw [if_pos (not_le.1 hq)]
    exact exec_tofixed_of_not_admitted fun h => hq (qAdmitted_iff.1 h)
  have hadm := qAdmitted_iff.2 hq
  rw [if_neg hq.not_gt]
  split_ifs with hinf
  case pos =>
    have hf : productFinite p q.toNat = false := by
      rw [← Bool.not_eq_true, productFinite_iff hq]
      rintro ⟨hexp, hlt⟩
      exact hinf.elim hexp hlt.not_ge
    exact ⟨_, _, exec_tofixed_of_nonfinite s hadm hf, rfl⟩
  case neg =>
    obtain ⟨hexp, hlt⟩ := not_or.1 hinf
    have hf := (productFinite_iff hq).2 ⟨hexp, not_le.1 hlt⟩
    refine ⟨_, _, exec_tofixed_of_finite s hadm hf, ?_, ?_⟩
    · rw [truncProduct_eq, wrap16]
    · rw [truncProduct_eq, overflows_iff]

/-- Settles O36: the general interval at the two Q factors. -/
theorem overflowIntervalExact : Obligations.OverflowIntervalExact := by
  intro s p hexp
  obtain ⟨r, v, hout, hv, hr⟩ := s.convert_exact p (q := 11) (by decide)
  obtain ⟨r', v', hout', hv', hr'⟩ := s.convert_exact p (q := 13) (by decide)
  rw [and_iff_right hexp] at hv hv'
  norm_num only at hv hv'
  norm_num only
  exact ⟨⟨_, r, v, exec_tofixed_of_admitted rfl, hout, hv, hr⟩,
    ⟨_, r', v', exec_tofixed_of_admitted rfl, hout', hv', hr'⟩⟩

/-- Settles O37: each clause's product is below 1 in magnitude, but at `q = 127` the integer is read off the fraction
field. -/
theorem tinyValuesGiveZero : Obligations.TinyValuesGiveZero := by
  refine ⟨fun s p q hq hexp htiny => ?tiny, fun s p hexp => ?edge⟩
  case tiny =>
    rw [exec_tofixed_of_admitted (qAdmitted_iff.2 hq)]
    obtain ⟨hzero, hq'⟩ | hlt := htiny
    · rw [s.convert_of_subnormal hzero hq']; rfl
    · have hlt' : |val32 p * 2 ^ q.toNat| < 1 := by rwa [abs_mul, abs_of_pos (by positivity : (0 : ℚ) < 2 ^ q.toNat)]
      rw [s.convert_of_tiny hq hexp hlt']; rfl
  case edge =>
    have hf : productFinite p 127 = true := by simp [productFinite, hexp]
    have hr : truncProduct p (127 : BitVec 8).toNat = _ := truncProduct_of_subnormal hexp
    rw [exec_tofixed_of_finite s (q := 127) rfl hf, hr]
    split_ifs <;> rfl

/-- Settles O38: the integer of each row of R122 by evaluation, and the products that are not finite. -/
theorem tofixedTableValues : Obligations.TofixedTableValues := by
  have hfinite {p : Pattern} {q : BitVec 8} {t : ℤ} {v : Bool} (h : qAdmitted q = true ∧
      productFinite p q.toNat = true ∧ wrap16 (truncProduct p q.toNat) = BitVec.ofInt 16 t ∧
      overflows (truncProduct p q.toNat) = v) :
      ∃ u, exec (.tofixed p q) State.reset = .next u ∧ u.out = .fixed (BitVec.ofInt 16 t) v := by
    obtain ⟨hq, hf, hr, rfl⟩ := h
    exact ⟨_, exec_tofixed_of_finite _ hq hf, by rw [hr]⟩
  have hnonfinite {p : Pattern} {q : BitVec 8} (h : qAdmitted q = true ∧ productFinite p q.toNat = false) :
      ∃ u r, exec (.tofixed p q) State.reset = .next u ∧ u.out = .fixed r true :=
    ⟨_, _, exec_tofixed_of_nonfinite _ h.1 h.2, rfl⟩
  refine ⟨fun row hrow => hfinite ?finite, fun row hrow => hnonfinite ?nonfinite⟩
  case finite => revert row; decide
  -- As one Bool over the list: the quantifier by itself would be decided over all patterns and Q factors.
  case nonfinite => revert row; rw [← List.all_iff_forall_prop]; decide

end Sys2Proof.Machine

namespace Sys2Proof

/-! ### The accessors -/

/-- The register that an accessor converts (44_fixed_point.md R112 to R120). -/
def Instr.accessed : Instr → Option (Fin 9)
  | .fxaccx => some 0 | .fxaccy => some 1 | .fxaccz => some 2
  | .fxgyrx => some 3 | .fxgyry => some 4 | .fxgyrz => some 5
  | .fxroll => some 6 | .fxpitch => some 7 | .fxyaw => some 8
  | .wract _ | .swap | .rxb | .rxack | .rxirq | .check _ _ | .decf32 _ | .parse | .tofixed _ _ | .print => none

end Sys2Proof

namespace Sys2Proof.Machine

theorem qFactor_le (j : Fin 9) : qFactor j ≤ 13 := by revert j; decide

theorem two_pow_qFactor (j : Fin 9) : (2 : ℚ) ^ qFactor j = if j.val < 6 then 2048 else 8192 := by
  unfold qFactor Config.qMotion Config.qOrient
  split_ifs <;> norm_num

section Accessor

variable {i : Instr} {j : Fin 9} (h : i.accessed = some j)
include h

theorem exec_of_accessed (s : State) : exec i s = .next (s.access j) := by
  cases i <;> cases h <;> rfl

theorem carries_of_accessed {c : Signals} (hc : c.cmd = i.code) : c.Carries i := by
  refine ⟨hc, ?_⟩
  cases i <;> cases h <;> trivial

theorem ctx_of_accessed : i.ctx = .consumer := by
  cases i <;> cases h <;> rfl

theorem isAccessor_of_accessed : IsAccessor i i.code j (BitVec.ofNat 8 (qFactor j)) := by
  have hle := qFactor_le j
  have hq : (BitVec.ofNat 8 (qFactor j)).toNat = qFactor j := Nat.mod_eq_of_lt (by omega)
  have hadm : qAdmitted (BitVec.ofNat 8 (qFactor j)) = true := qAdmitted_iff.2 (by omega)
  refine ⟨fun c hc => decode_of_carries (carries_of_accessed h hc), ctx_of_accessed h, fun s =>
    ⟨s.access j, exec_of_accessed h s, ?_, s.convert_frame _ _⟩⟩
  rw [exec_tofixed_of_admitted hadm, hq, State.access]

end Accessor

/-- Settles O39: each operation's register, with its code and its Q factor. -/
theorem accessorsConvertTheirRegister : Obligations.AccessorsConvertTheirRegister :=
  ⟨isAccessor_of_accessed rfl, isAccessor_of_accessed rfl, isAccessor_of_accessed rfl, isAccessor_of_accessed rfl,
    isAccessor_of_accessed rfl, isAccessor_of_accessed rfl, isAccessor_of_accessed rfl, isAccessor_of_accessed rfl,
    isAccessor_of_accessed rfl⟩

/-- Settles O40: the conversion of the accessor's register, with its scale as a power of two. -/
theorem accessorValueExact : Obligations.AccessorValueExact := by
  intro i j hij
  have h : i.accessed = some j := by
    change (i, j).1.accessed = some (i, j).2
    generalize (i, j) = row at hij
    revert row; decide
  intro scale s
  obtain ⟨r, v, hout, hv, hr⟩ := s.convert_exact (s.reading j) (q := qFactor j) ((qFactor_le j).trans (by decide))
  rw [two_pow_qFactor] at hv hr
  exact ⟨_, r, v, exec_of_accessed h s, hout, hv, hr⟩

/-- Settles O41: the registers are zero after reset. -/
theorem accessorsZeroAfterReset : Obligations.AccessorsZeroAfterReset := by
  intro i hi
  obtain ⟨j, h⟩ : ∃ j, i.accessed = some j := by
    revert i; decide
  refine ⟨_, exec_of_accessed h _, ?_⟩
  rw [State.access, State.reset_reading,
    State.convert_of_subnormal _ (by decide) ((qFactor_le j).trans (by decide)), State.answer_out]

end Sys2Proof.Machine

/-! ## Proofs of the family `45_diagnostic.md` -/

namespace Sys2Proof.Machine

/-! ### PRINT -/

/-- PRINT writes its answer and no other field (45_diagnostic.md R130). -/
theorem exec_print (s : State) : exec .print s = .next { s with out := .text (Config.printText s.x) } := rfl

/-- States that read the same in all nine registers have the same register file. -/
theorem State.x_eq_of_reading_eq {s t : State} (h : ∀ j, s.reading j = t.reading j) : s.x = t.x :=
  Vector.ext fun j hj => h ⟨j, hj⟩

/-- Settles O43: the text is a function of the register file, which the nine readings determine. -/
theorem printReadsOnlyReadings : Obligations.PrintReadsOnlyReadings := by
  refine ⟨decode_of_carries ⟨rfl, trivial⟩, rfl, fun s => ⟨_, exec_print s⟩, fun s t u v hreading hu hv => ?_⟩
  have hx : s.x = t.x := State.x_eq_of_reading_eq hreading
  rw [exec_print] at hu hv
  cases hu
  cases hv
  rw [hx]

end Sys2Proof.Machine

/-! ## Proofs of the family `60_exceptions.md` -/

namespace Sys2Proof.Machine

/-! ### The sticky overrun flag -/

theorem State.append_ovr_of_ovr {s : State} (b : Byte) (h : s.ovr = true) : (s.append b).ovr = true := by
  rw [State.append_ovr, h, ite_self]

theorem State.drain_ovr_of_ovr (bs : List Byte) {s : State} (h : s.ovr = true) : (State.drain bs s).ovr = true := by
  induction bs generalizing s with
  | nil => exact h
  | cons b bs ih => exact ih (by rw [State.receive_ovr]; exact State.append_ovr_of_ovr b h)

/-- No operation clears `ovr` (60_exceptions.md R142). -/
theorem exec_ovr_of_ovr {i : Instr} {s t : State} (h : exec i s = .next t) (hs : s.ovr = true) : t.ovr = true := by
  rcases exec_cases h with ⟨b, -, rfl⟩ | ⟨b, rest, -, -, -, rfl⟩ | ⟨-, -, -, rfl⟩ | ⟨-, -, rfl⟩ | ⟨-, rfl⟩ |
    ⟨-, rfl⟩ | ⟨-, ht⟩
  · exact State.append_ovr_of_ovr b hs
  · rw [State.receive_ovr]; exact State.append_ovr_of_ovr b hs
  · exact hs
  · exact State.drain_ovr_of_ovr s.rxq hs
  · exact hs
  · simpa using hs
  · rw [ht]; exact hs

/-- Of all steps only RESET clears `ovr`. -/
theorem step_ovr_of_ovr {s t : State} (hk : ∀ m ∈ s.moves.head?, m ≠ .reset) (h : step s = .next t)
    (hs : s.ovr = true) : t.ovr = true := by
  rcases step_cases h with ⟨-, -, i, -, he⟩ | ⟨m, rest, hm, ⟨b, -, rfl⟩ | ⟨rfl, -⟩ | ⟨-, rfl⟩ | ⟨c, i, -, -, he⟩⟩
  · exact exec_ovr_of_ovr he hs
  · exact hs
  · exact absurd rfl (hk .reset (by rw [hm]; rfl))
  · exact hs
  · exact exec_ovr_of_ovr (s := { s with moves := rest }) he hs

/-- What every step keeps whose listed move is allowed, a run keeps whose listed moves are allowed. -/
theorem run_preserves {P : State → Prop} {allowed : Move → Prop}
    (hstep : ∀ s t, (∀ m ∈ s.moves.head?, allowed m) → step s = .next t → P s → P t) {n : Nat} {s t : State}
    (hk : ∀ m ∈ s.moves.take n, allowed m) (h : Host.Core.run core n s = .next t) (hs : P s) : P t := by
  induction n generalizing s with
  | zero => cases run_zero_eq_next.1 h; exact hs
  | succ n ih =>
    obtain ⟨u, hu, hrun⟩ := run_succ_eq_next.1 h
    have hfirst : ∀ m ∈ s.moves.head?, allowed m := fun m hm =>
      hk m (List.mem_of_mem_head? (by rwa [List.head?_take, if_neg n.succ_ne_zero]))
    have hrest : ∀ m ∈ u.moves.take n, allowed m := fun m hm =>
      hk m (List.mem_of_mem_tail (by rwa [List.tail_take_eq_take_tail, Nat.add_sub_cancel, ← step_moves hu]))
    exact ih hrest hrun (hstep s u hfirst hu hs)

/-- Settles O52: a step with no RESET keeps the flag set, and the run is such steps. -/
theorem overrunSticky : Obligations.OverrunSticky := fun _ _ _ hk hrun hs =>
  run_preserves (P := fun s => s.ovr = true) (fun _ _ => step_ovr_of_ovr) hk hrun hs

/-! ### The mark of a service in progress (log entry 8) -/

/-- No operation outside the interrupt service touches its mark. -/
theorem exec_inService {i : Instr} {s t : State} (hb : i ≠ .rxb) (ha : i ≠ .rxack) (hq : i ≠ .rxirq)
    (h : exec i s = .next t) : t.inService = s.inService := by
  rcases exec_cases h with ⟨b, -, rfl⟩ | ⟨b, rest, hi, -⟩ | ⟨hi, -⟩ | ⟨hi, -⟩ | ⟨-, rfl⟩ | ⟨-, rfl⟩ | ⟨-, ht⟩
  · exact s.append_inService b
  · exact absurd hi hb
  · exact absurd hi ha
  · exact absurd hi hq
  · rfl
  · simp
  · rw [ht]

/-- Settles O20: RXB enters the service, RXACK and the end of RXIRQ leave it, and RESET clears the mark. -/
theorem serviceMarked : Obligations.ServiceMarked := by
  refine ⟨fun s t h => ?rxb, fun s t h => ?leave, fun s t hm h => ?reset,
    fun _ _ _ hb ha hq h => exec_inService hb ha hq h, fun s t b hm h => ?push⟩
  case rxb =>
    obtain ⟨b, rest, -, -, rfl⟩ := exec_rxb_cases h
    exact s.receive_inService b rest
  case leave =>
    rcases h with h | h
    · obtain ⟨-, -, rfl⟩ := exec_rxack_cases h; rfl
    · obtain ⟨-, rfl⟩ := exec_rxirq_cases h; rfl
  case reset | push =>
    obtain ⟨rest, hm⟩ := List.head?_eq_some_iff.1 hm
    rw [step_cons hm] at h
    cases h; rfl

/-! ### No step -/

/-- Settles O8: with no move listed only the producer could step, and it is not enabled. -/
theorem quiescentHasNoStep : Obligations.QuiescentHasNoStep := by
  intro s hm hp
  rw [step_nil hm, serve, hp]
  rfl

/-! ### A store and a swap -/

/-- A listed WRACT appends its byte, in whatever state it is taken. -/
theorem step_command_wract {s : State} {b : Byte} {rest : List Move} (hm : s.moves = command (.wract b) :: rest) :
    step s = .next (({ s with moves := rest } : State).append b) :=
  step_command_of_producer rfl hm

section StoreAndSwap

variable {s : State} (b : Byte) (rest : List Move) (hd : s.inService = true → s.drainAtomic = false)
include hd

/-- The store first: the byte is appended, then the buffers are handed over. -/
theorem run_wract_swap : Host.Core.run core 2 { s with moves := command (.wract b) :: command .swap :: rest } =
    .next ((({ s with moves := rest } : State).append b).handOver.answer (.buffer s.sel)) := by
  have hstore := step_command_wract (s := { s with moves := command (.wract b) :: command .swap :: rest }) rfl
  have hswap := step_command_swap (s := ({ s with moves := command .swap :: rest } : State).append b) (rest := rest)
    (by simpa using hd) (by simp)
  rw [State.append_setMoves, State.append_sel] at hswap
  exact (run_succ_of_step hstore).trans (run_succ_of_step hswap)

/-- The swap first: the byte is appended to the buffer that has just become write-active. -/
theorem run_swap_wract : Host.Core.run core 2 { s with moves := command .swap :: command (.wract b) :: rest } =
    .next ((({ s with moves := rest } : State).handOver.answer (.buffer s.sel)).append b) := by
  have hswap := step_command_swap (s := { s with moves := command .swap :: command (.wract b) :: rest }) hd rfl
  exact (run_succ_of_step hswap).trans (run_succ_of_step (step_command_wract rfl))

end StoreAndSwap

/-- With room, an append puts its byte at the write address and nowhere else. -/
theorem State.append_load_of_room {s : State} (b : Byte) (hroom : s.wrPtr.toNat < 256) :
    (s.append b).load (flat s.sel s.wrPtr.toNat) = b ∧
      ∀ c, c ≠ flat s.sel s.wrPtr.toNat → (s.append b).load c = s.load c :=
  ⟨by rw [State.append_load, if_pos ⟨hroom, rfl⟩], fun _ => State.append_load_of_ne b⟩

/-- Settles O17: either order is one append and one handover, and the handover moves no byte. Before the swap the append
goes to the old write address, after it to offset 0 of the other buffer. -/
theorem storeAndSwapSerialise : Obligations.StoreAndSwapSerialise := by
  intro s b rest hroom hd
  refine ⟨⟨_, run_wract_swap b rest hd, ?storeFirst⟩, ⟨_, run_swap_wract b rest hd, ?swapFirst⟩⟩
  case storeFirst =>
    obtain ⟨hstored, hkept⟩ := State.append_load_of_room (s := { s with moves := rest }) b hroom
    exact ⟨hstored, hkept, by simp, rfl, rfl⟩
  case swapFirst =>
    have hroom' : (({ s with moves := rest } : State).handOver.answer (.buffer s.sel)).wrPtr.toNat < 256 := by simp
    obtain ⟨hstored, hkept⟩ := State.append_load_of_room b hroom'
    exact ⟨hstored, hkept, by simp, by rw [State.append_wrPtr_toNat, if_pos hroom']; rfl, by simp⟩

end Sys2Proof.Machine

/-! ## Proofs of the family `70_reset_and_hazards.md` -/

namespace Sys2Proof.Machine

/-! ### RESET -/

/-- While `buf[0]` is the write-active buffer the consumer reads `buf[1]` (10_state.md R24). -/
theorem State.inReadBuffer_iff_of_sel_eq_zero {s : State} (hsel : s.sel = 0) (a : Addr) :
    s.inReadBuffer a = true ↔ 256 ≤ a.toNat := by
  have ha := a.isLt
  have hzero : s.sel.toNat = 0 := congrArg BitVec.toNat hsel
  rw [State.inReadBuffer_iff, hzero]
  omega

/-- On a range inside one buffer, CHECK answers exactly on the read buffer (30_encoding.md R61). -/
theorem exec_check_next_iff {a len : BitVec 9} {s : State} (hr : rangeInBuffer a len.toNat = true) :
    (∃ t, exec (.check a len) s = .next t) ↔ s.inReadBuffer a = true := by
  refine ⟨fun ⟨t, h⟩ => ?_, fun hb => ⟨_, exec_check_of_admitted hr hb⟩⟩
  obtain ⟨-, hb, -⟩ := exec_check_cases h
  exact hb

/-- On a range inside one buffer, DECF32 answers exactly on the read buffer (30_encoding.md R61). -/
theorem exec_decf32_next_iff {a : BitVec 9} {s : State} (hr : rangeInBuffer a 4 = true) :
    (∃ t, exec (.decf32 a) s = .next t) ↔ s.inReadBuffer a = true := by
  refine ⟨fun ⟨t, h⟩ => ?_, fun hb => ⟨_, exec_decf32_of_admitted hr hb⟩⟩
  obtain ⟨-, hb, -⟩ := exec_decf32_cases h
  exact hb

/-- Settles O10: RESET writes every field, role-keeping steps leave its selector, which alone decides what the consumer may
load, and every other step keeps a set `ovr`. -/
theorem resetEventClearsAll : Obligations.ResetEventClearsAll := by
  refine ⟨fun s rest hm => ⟨_, step_cons hm, State.resetEvent_reading _, rfl, rfl, rfl, rfl, rfl,
    State.resetEvent_load _, rfl, fun n u hk hrun => ?loads⟩, fun s t h hs ht => ?onlyReset⟩
  case loads =>
    obtain ⟨hsel, -⟩ := readBufferStable n _ u hk hrun
    have hread := State.inReadBuffer_iff_of_sel_eq_zero (s := u) hsel
    exact ⟨fun a ha => (exec_decf32_next_iff (rangeInBuffer_iff.2 (by omega))).trans (hread a),
      fun a len ha => (exec_check_next_iff (rangeInBuffer_iff.2 ha)).trans (hread a)⟩
  case onlyReset =>
    by_contra hne
    have hkept := step_ovr_of_ovr (fun m hm e => hne (e ▸ hm)) h hs
    rw [ht] at hkept
    cases hkept

/-! ### Service with nothing listed -/

/-- With DRAIN_ATOMIC = true the producer's step is the whole service. -/
theorem step_service_atomic {s : State} (hm : s.moves = []) (hp : s.irqPend = true) (ha : s.drainAtomic = true) :
    step s = exec .rxirq s := by
  rw [step_nil hm, serve, if_pos hp, if_pos ha]

/-- With DRAIN_ATOMIC = false the producer's step is RXB while a byte is queued. -/
theorem step_service_cons {s : State} {b : Byte} {bs : List Byte} (hm : s.moves = []) (hp : s.irqPend = true)
    (ha : s.drainAtomic = false) (hq : s.rxq = b :: bs) : step s = .next (s.receive b bs) := by
  rw [step_nil hm, serve, if_pos hp, if_neg (by simp [ha]), if_neg (by simp [hq]), exec_rxb_of_enabled hp hq]

/-- With DRAIN_ATOMIC = false the producer's step is RXACK once the queue is empty. -/
theorem step_service_nil {s : State} (hm : s.moves = []) (hp : s.irqPend = true) (ha : s.drainAtomic = false)
    (hq : s.rxq = []) : step s = .next s.leaveService := by
  rw [step_nil hm, serve, if_pos hp, if_neg (by simp [ha]), if_pos hq, exec_rxack_of_enabled hp hq]

/-- The producer's own RXB and RXACK steps are the whole service (70_reset_and_hazards.md R169), by induction on the queue:
each RXB is the first step of the drain, and RXACK ends it. -/
theorem run_service {bs : List Byte} {s : State} (hm : s.moves = []) (hp : s.irqPend = true)
    (ha : s.drainAtomic = false) (hq : s.rxq = bs) : Host.Core.run core (bs.length + 1) s = exec .rxirq s := by
  induction bs generalizing s with
  | nil =>
    rw [exec_rxirq_of_empty hp hq, exec_rxack_of_enabled hp hq]
    exact run_succ_of_step (step_service_nil hm hp ha hq)
  | cons b bs ih =>
    rw [exec_rxirq_of_cons hp hq]
    exact (run_succ_of_step (step_service_cons hm hp ha hq)).trans
      (ih (by simp [hm]) (by simp [hp]) (by simp [ha]) (by simp))

/-- Settles O23: for either value of DRAIN_ATOMIC the steps reach the state of RXIRQ, which has drained the queue and
acknowledged. -/
theorem serviceReachesQuiescence : Obligations.ServiceReachesQuiescence := by
  intro s hm hp
  have hirq := exec_rxirq_of_pending hp
  refine ⟨_, ?runs, hirq, State.drain_rxq s, rfl⟩
  split_ifs with ha
  · exact run_succ_of_step ((step_service_atomic hm hp ha).trans hirq)
  · exact (run_service hm hp (by simpa using ha) rfl).trans hirq

/-! ### The observations -/

/-- Settles O12: either observation is taken off the list and the state is handed on as it is. -/
theorem observationsChangeNothing : Obligations.ObservationsChangeNothing := by
  intro s rest hm
  rcases hm with hm | hm
  · exact step_cons hm
  · exact step_cons hm

end Sys2Proof.Machine
